-- ==== Sys2Proof/Word.lean ====
section
/-! DEFINITION. The word types of the base24 codec core: the widths the spec gives to bytes, blocks, digits and buses, and
the seven lanes in which digits and symbols travel (spec/10_state.md R26, R27; spec/20_memory.md R33). -/

namespace Sys2Proof

/-- An 8-bit byte, and equally an 8-bit symbol code (R9, R33). -/
abbrev Byte := BitVec 8

/-- A block: four bytes read as one unsigned 32-bit number, byte 0 most significant (R6, R31). -/
abbrev Block := BitVec 32

/-- The packed codes of one group of seven symbols, symbol 0 most significant (R26, R27). -/
abbrev Group := BitVec 56

/-- The packed digits of one block, five bits a digit, digit 0 most significant (R26). -/
abbrev DigitBus := BitVec 35

/-- A base-24 digit: an integer 0..23 (R7, R16). On a bus it is a 5-bit field (R8). -/
abbrev Digit := Fin 24

/-- The model's one-word form of the pair (op, bus value) that encodes an operation line (R54); its layout is the model's
(DESIGN CHOICE, unsafe; notes/assumptions/5.md). -/
abbrev LineWord := BitVec 64

/-- Seven lanes, lane 0 first in the text and most significant (R32, R59, R65). -/
structure Lanes (α : Type) where
  /-- lane 0, weight `24^6` -/
  l0 : α
  /-- lane 1, weight `24^5` -/
  l1 : α
  /-- lane 2, weight `24^4` -/
  l2 : α
  /-- lane 3, weight `24^3` -/
  l3 : α
  /-- lane 4, weight `24^2` -/
  l4 : α
  /-- lane 5, weight `24` -/
  l5 : α
  /-- lane 6, weight `1` -/
  l6 : α
  deriving DecidableEq, Repr

end Sys2Proof
end

