-- ==== Sys2Proof/Config.lean ====
section
/-! DEFINITION. The implementation parameters of spec/00_scope.md section 4, the parameters the spec leaves open
(no body: nothing can be proved of their values), and the values that the ports show before they first settle. -/

namespace Sys2Proof

/-- `BLOCK_BYTES` (R6). -/
abbrev Config.blockBytes : Nat := 4

/-- `WORD_BITS` (R6). -/
abbrev Config.wordBits : Nat := 32

/-- `DIGITS` (R7). -/
abbrev Config.digits : Nat := 7

/-- `RADIX` (R7). -/
abbrev Config.radix : Nat := 24

/-- `DIGIT_BITS` (R8; spec/90_conflicts.md C1). -/
abbrev Config.digitBits : Nat := 5

/-- `SYMBOL_BITS` (R9). -/
abbrev Config.symbolBits : Nat := 8

/-- Encoder instances beyond the first (R12, D19 leave the number open; notes/assumptions/10.md, safe). -/
opaque Config.moreEncoders : Nat

/-- Decoder instances beyond the first (R12, D19; notes/assumptions/10.md, safe). -/
opaque Config.moreDecoders : Nat

/-- `N_ENC >= 1` (R12). -/
def Config.nEnc : Nat := Config.moreEncoders + 1

/-- `N_DEC >= 1` (R12). -/
def Config.nDec : Nat := Config.moreDecoders + 1

/-- `T_PD_ENC`, the encoder's open propagation delay (R109, R111, D11). No rule depends on it and nothing reads it. -/
opaque Config.tPdEnc : Nat

/-- `T_PD_DEC`, the decoder's open propagation delay (R109, R111, D11). No rule depends on it and nothing reads it. -/
opaque Config.tPdDec : Nat

/-- Any value: `enc_dig` while it has not settled (R107, R109), for the `n`-th such moment (notes/assumptions/4.md). -/
opaque Config.unsettledEncDig : Nat → DigitBus

/-- Any value: `enc_sym` while it has not settled (R107, R109; notes/assumptions/4.md). -/
opaque Config.unsettledEncSym : Nat → Group

/-- Any value: `dec_out` while it has not settled (R107, R109; notes/assumptions/4.md). -/
opaque Config.unsettledDecOut : Nat → Block

/-- Any value: `dec_err` while it has not settled (R107, R109; notes/assumptions/4.md). -/
opaque Config.unsettledDecErr : Nat → BitVec 1

/-- Any value: `dec_bad_idx` while it has not settled, 7 included (R109; notes/assumptions/4.md). -/
opaque Config.unsettledDecBadIdx : Nat → BitVec 3

/-- Any value: `dec_ovf` while it has not settled (R107, R109; notes/assumptions/4.md). -/
opaque Config.unsettledDecOvf : Nat → BitVec 1

end Sys2Proof
end

