-- ==== Sys2Proof/Syntax.lean ====
section
/-! DEFINITION. The operations of spec/opcode_table.json (spec/30_encoding.md R45, R50), and the host's lines and
pseudo-operations over them (R54, R55). -/

namespace Sys2Proof

/-- One operation: one evaluation of one unit. One constructor for each row of spec/opcode_table.json (R50). -/
inductive Instr where
  /-- `ENC`: base24_encoder applied to the block `v` on `enc_in` (R61, format `FMT_ENC`). -/
  | enc (v : Block)
  /-- `DEC`: base24_decoder applied to the seven packed codes `c` on `dec_sym` (R70, format `FMT_DEC`). -/
  | dec (c : Group)
  deriving DecidableEq, Repr

/-- A line of a program as the host presents it (R54; spec/95_test_vectors.md section 3). -/
inductive Line where
  /-- an operation with its operand written out -/
  | op (i : Instr)
  /-- `DEC` of the `enc_sym` that the encoder settles on when the line is reached: the two buses wired together (R48, R109,
  program P5) -/
  | decOfEncSym
  deriving DecidableEq, Repr

/-- The host layer's pseudo-operations (R55), over a sequence of bytes or a text of 8-bit code units (R75). -/
inductive HostOp where
  /-- `ENCODE [b0, b1, ...]` -/
  | encode (x : List Byte)
  /-- `DECODE "t0 t1 ..."` -/
  | decode (t : List Byte)
  deriving DecidableEq, Repr

end Sys2Proof
end

