-- ==== Sys2Proof/WellFormed.lean ====
section
/-! DEFINITION. What is well formed: every operation (R48, R52), a line word whose bits above its format's bus are zero
(R45), and a host call whose sequence splits into whole blocks or groups (R34, R77, R79). -/

namespace Sys2Proof

/-- All `2^32` values of `enc_in` are legal and all `2^56` values of `dec_sym` are admitted (R48, R52); the operand's type has
exactly those values, so every operation is well formed. -/
def Instr.wf : Instr → Bool
  | .enc _ => true
  | .dec _ => true

/-- A line word carries nothing above the bus of the format its selector bit names (R45, R53): 31 zero bits above the 33 of
`FMT_ENC`, 7 above the 57 of `FMT_DEC` (DESIGN CHOICE, notes/assumptions/5.md). -/
def LineWord.wf (w : LineWord) : Bool :=
  if w.extractLsb' 0 1 = 0 then w.extractLsb' 33 31 = 0 else w.extractLsb' 57 7 = 0

/-- The length conditions of R77 and R79: whole 4-byte blocks, whole 7-symbol groups. -/
def HostOp.wf : HostOp → Bool
  | .encode x => x.length % Config.blockBytes == 0
  | .decode t => t.length % Config.digits == 0

end Sys2Proof
end

