-- ==== Sys2Proof/Decode.lean ====
section
/-! DEFINITION. From an operation line's word to its operation and back (spec/30_encoding.md R45, R46, R48, R50, R54). The
spec encodes a line as the pair (op, bus value); the model's one-word layout of that pair is `op` at bit 0, where
spec/opcode_table.json has it, the format's input bus from bit 1 up, and zeros above (DESIGN CHOICE, unsafe;
notes/assumptions/5.md). -/

namespace Sys2Proof

/-- Why a word is no operation line. Both values of `op` are defined (R50), so only a bus that is too wide is refused. -/
inductive DecodeError where
  /-- `op = 0` and a bit above the 32 bits of `enc_in` is set: no such bus value exists (R45) -/
  | encBusTooWide
  /-- `op = 1` and a bit above the 56 bits of `dec_sym` is set: no such bus value exists (R45) -/
  | decBusTooWide
  deriving DecidableEq, Repr

/-- One row of spec/opcode_table.json: a word is the row's when its bits under `mask` are `pattern`. -/
structure OpcodeRow where
  /-- the row's mnemonic -/
  mnemonic : String
  /-- the bits the row fixes -/
  mask : LineWord
  /-- their values -/
  pattern : LineWord
  deriving DecidableEq, Repr

/-- spec/opcode_table.json. -/
def opcodeTable : List OpcodeRow :=
  [{ mnemonic := "ENC", mask := 0x1, pattern := 0x0 }, { mnemonic := "DEC", mask := 0x1, pattern := 0x1 }]

/-- `w` is a word of the row. -/
def OpcodeRow.covers (r : OpcodeRow) (w : LineWord) : Bool := w &&& r.mask == r.pattern

/-- The table's mnemonic of an operation. -/
def Instr.mnemonic : Instr → String
  | .enc _ => "ENC"
  | .dec _ => "DEC"

/-- The selector bit of an operation (R50): 0 selects `ENC`, 1 selects `DEC`. -/
def Instr.selector : Instr → BitVec 1
  | .enc _ => 0
  | .dec _ => 1

/-- A line word laid out from a selector and the widest input bus: the narrower bus is widened with zeros (R13). -/
def lineWord (op : BitVec 1) (bus : Group) : LineWord := (0 : BitVec 7) ++ bus ++ op

/-- The selector bit of a line word (R50). -/
def wordSelector (w : LineWord) : BitVec 1 := w.extractLsb' 0 1

/-- The bus value of a line word of `FMT_ENC` (R46). -/
def wordEncBus (w : LineWord) : Block := w.extractLsb' 1 32

/-- The bus value of a line word of `FMT_DEC` (R48). -/
def wordDecBus (w : LineWord) : Group := w.extractLsb' 1 56

/-- The operation of a line word (R50), or the named reason that it is none. Total. -/
def decode (w : LineWord) : Except DecodeError Instr :=
  if wordSelector w = 0 then
    if w.extractLsb' 33 31 = 0 then .ok (.enc (wordEncBus w)) else .error .encBusTooWide
  else
    if w.extractLsb' 57 7 = 0 then .ok (.dec (wordDecBus w)) else .error .decBusTooWide

/-- The line word of an operation: selector (R50) and input bus (R46, R48). -/
def encode : Instr → LineWord
  | .enc v => lineWord 0 (v.setWidth 56)
  | .dec c => lineWord 1 c

/-- A line word from a number whose bits from `nbits` up are taken as zero. -/
def tableWord (nbits w : Nat) : LineWord := BitVec.ofNat 64 (w % 2 ^ nbits)

/-- The operation that the decoder reads from an instruction whose bits are `w`, numbered as spec/opcode_table.json numbers
them; bits from `nbits` up are zero. A number that does not fit the line word is no line. -/
def decodeTableWord (nbits w : Nat) : Option Instr :=
  if w % 2 ^ nbits < 2 ^ 64 then (decode (tableWord nbits w)).toOption else none

end Sys2Proof
end

