-- ==== Sys2Proof/Machine/State.lean ====
section
/-! DEFINITION. The state: the levels on the ports of the two units (spec/10_state.md R26, R27) and the model's selector
(R50). The units themselves hold no mutable state (R17 to R23); what stands here is what a host drives and what it samples
once the outputs have settled (R109). DESIGN CHOICE, safe: notes/assumptions/1.md. -/

namespace Sys2Proof.Machine

/-- The ports of base24_encoder (R26). -/
structure EncPorts where
  /-- `enc_in[31:0]`, driven by the host -/
  encIn : Block
  /-- `enc_dig[34:0]`, seven 5-bit digits -/
  encDig : DigitBus
  /-- `enc_sym[55:0]`, seven symbol codes -/
  encSym : Group
  deriving DecidableEq, Repr

/-- The ports of base24_decoder (R27). -/
structure DecPorts where
  /-- `dec_sym[55:0]`, driven by the host -/
  decSym : Group
  /-- `dec_out[31:0]`, the decoded block -/
  decOut : Block
  /-- `dec_err`, 1 when some symbol is not in the alphabet -/
  decErr : BitVec 1
  /-- `dec_bad_idx[2:0]`, the lowest invalid lane -/
  decBadIdx : BitVec 3
  /-- `dec_ovf`, 1 when a valid group's sum is at least `2^32` -/
  decOvf : BitVec 1
  deriving DecidableEq, Repr

/-- One encoder, one decoder, and the selector that says whose evaluation the host presents and reads (R50). -/
structure State where
  /-- the model-level selector `op`: 0 = `ENC`, 1 = `DEC` (R50); a value of the model, no port -/
  op : BitVec 1
  /-- the encoder's ports -/
  enc : EncPorts
  /-- the decoder's ports -/
  dec : DecPorts
  deriving DecidableEq, Repr

/-- What could stop the machine with a fault: nothing. No condition of this hardware traps and no other failure exists
(R94, R96), so the type has no constructor: `exec` and `step` cannot answer a fault. Safe only if the spec is right that
there is none (notes/assumptions/15.md). -/
inductive Fault where
  deriving DecidableEq, Repr

/-- Why the model gives a word no meaning. -/
inductive Refusal where
  /-- Raised by an arm of `exec` whose instruction has no meaning yet; no arm is such a one. Safe. -/
  | notModelled (mnemonic : String)
  /-- Raised by `step` if the presented word is no operation line. What a host can present always is one, so no step raises
  it (notes/assumptions/15.md). Safe. -/
  | undecodableLine (reason : DecodeError)
  deriving DecidableEq, Repr

/-- After reset: inputs and selector at 0 (DESIGN CHOICE, unsafe: the spec gives a driven input no value;
notes/assumptions/2.md), and every output at its unit's function of those inputs, as R29 says. `ENC` of 0 is `ZZZZZZZ`;
seven NUL codes are invalid from lane 0 on. -/
def State.reset : State where
  op := 0
  enc := { encIn := 0, encDig := 0, encSym := 0x5A5A5A5A5A5A5A }
  dec := { decSym := 0, decOut := 0, decErr := 1, decBadIdx := 0, decOvf := 0 }

end Sys2Proof.Machine
end

