-- ==== Sys2Proof/Machine/Alphabet.lean ====
section
/-! DEFINITION. The alphabet ROM (spec/10_state.md R24, R25), case normalisation (spec/41_decoder.md R63) and the validator's
inverse table (R64). -/

namespace Sys2Proof.Machine

/-- `ALPHA[d]`, the ASCII code of digit `d`'s symbol; in digit order `ZAC2B3EF4GH5TK67P8RS9WXY` (R24). The codes are the spec's
(D3, G1; notes/assumptions/7.md). -/
def alpha (d : Digit) : Byte :=
  #v[0x5A#8, 0x41#8, 0x43#8, 0x32#8, 0x42#8, 0x33#8, 0x45#8, 0x46#8,
     0x34#8, 0x47#8, 0x48#8, 0x35#8, 0x54#8, 0x4B#8, 0x36#8, 0x37#8,
     0x50#8, 0x38#8, 0x52#8, 0x53#8, 0x39#8, 0x57#8, 0x58#8, 0x59#8][d]

/-- `N(c)`: only the 26 ASCII lower-case letter codes change, by `0x20` (R63). -/
def caseNorm (c : Byte) : Byte := if 0x61 ≤ c.toNat ∧ c.toNat ≤ 0x7A then c - 0x20 else c

/-- `lowercase` of one code: only the 26 ASCII upper-case letter codes change (R86). -/
def lowerCase (c : Byte) : Byte := if 0x41 ≤ c.toNat ∧ c.toNat ≤ 0x5A then c + 0x20 else c

/-- The inverse of the ROM on its own codes (R25): the digit whose symbol is `c`, if there is one. -/
def alphaInverse (c : Byte) : Option Digit := (List.finRange 24).find? fun d => alpha d == c

/-- `INV(c)` (R64): the digit of a code, after case normalisation; `none` is `v = 0`. -/
def inv (c : Byte) : Option Digit := alphaInverse (caseNorm c)

/-- The validity bit `v` of `INV` (R64). -/
def laneValid (g : Option Digit) : Bool := g.isSome

/-- The digit `g` of `INV`, 0 for an invalid lane, where it reaches no output (R64, D18). -/
def laneDigit (g : Option Digit) : Digit := g.getD 0

end Sys2Proof.Machine
end

