-- ==== Sys2Proof/Machine/Operands.lean ====
section
/-! DEFINITION. The fields of the buses and how operands are assembled from them (spec/20_memory.md R31, R32;
spec/30_encoding.md R46 to R49, R51). -/

namespace Sys2Proof.Machine

/-- Lane `i` (R32). -/
def lane {α : Type} (l : Lanes α) (i : Fin 7) : α :=
  match i with
  | 0 => l.l0
  | 1 => l.l1
  | 2 => l.l2
  | 3 => l.l3
  | 4 => l.l4
  | 5 => l.l5
  | 6 => l.l6

/-- The seven lanes filled from their numbers. -/
def lanesOf {α : Type} (f : Fin 7 → α) : Lanes α :=
  { l0 := f 0, l1 := f 1, l2 := f 2, l3 := f 3, l4 := f 4, l5 := f 5, l6 := f 6 }

/-- Seven independent copies of one table or circuit, one a lane (R59, R65). -/
def lanesMap {α β : Type} (f : α → β) (l : Lanes α) : Lanes β :=
  { l0 := f l.l0, l1 := f l.l1, l2 := f l.l2, l3 := f l.l3, l4 := f l.l4, l5 := f l.l5, l6 := f l.l6 }

/-- The lanes in text order. -/
def lanesList {α : Type} (l : Lanes α) : List α := [l.l0, l.l1, l.l2, l.l3, l.l4, l.l5, l.l6]

/-- Byte `k` of a block, `[31-8k:24-8k]` (R26, R46, R49). -/
def blockByte (v : Block) (k : Fin 4) : Byte := v.extractLsb' (24 - 8 * k.val) 8

/-- A block's bytes in sequence order (R31). -/
def blockBytes (v : Block) : List Byte := [blockByte v 0, blockByte v 1, blockByte v 2, blockByte v 3]

/-- The block of four bytes, `b0` most significant (R31). -/
def blockOfBytes (b0 b1 b2 b3 : Byte) : Block := b0 ++ b1 ++ b2 ++ b3

/-- Digit field `i` of `enc_dig`, `[34-5i:30-5i]` (R26, R47). -/
def digitField (b : DigitBus) (i : Fin 7) : BitVec 5 := b.extractLsb' (30 - 5 * i.val) 5

/-- Symbol field `i` of `enc_sym` or `dec_sym`, `[55-8i:48-8i]` (R26, R27, R47, R48). -/
def symbolField (g : Group) (i : Fin 7) : Byte := g.extractLsb' (48 - 8 * i.val) 8

/-- A digit in its 5-bit field (R8). -/
def digitBits (d : Digit) : BitVec 5 := BitVec.ofNat 5 d.val

/-- `{ d0, d1, ..., d6 }` on `enc_dig` (R47, R56). -/
def packDigits (d : Lanes (BitVec 5)) : DigitBus := d.l0 ++ d.l1 ++ d.l2 ++ d.l3 ++ d.l4 ++ d.l5 ++ d.l6

/-- `{ s0, s1, ..., s6 }` on `enc_sym`, and equally `{ c0, ..., c6 }` on `dec_sym` (R47, R48, R59). -/
def packSymbols (s : Lanes Byte) : Group := s.l0 ++ s.l1 ++ s.l2 ++ s.l3 ++ s.l4 ++ s.l5 ++ s.l6

/-- The seven codes of a packed group (R48). -/
def symbolLanes (g : Group) : Lanes Byte := lanesOf (symbolField g)

/-- The seven codes of a packed group as a text (R78). -/
def groupText (g : Group) : List Byte := lanesList (symbolLanes g)

/-- `N` applied to each lane of a group (R73, R74). -/
def groupUpper (g : Group) : Group := packSymbols (lanesMap caseNorm (symbolLanes g))

/-- `lowercase` applied to each lane of a group (R74, R86). -/
def groupLower (g : Group) : Group := packSymbols (lanesMap lowerCase (symbolLanes g))

end Sys2Proof.Machine
end

