-- ==== Sys2Proof/Machine/Flags.lean ====
section
/-! DEFINITION. The decoder's exact sum, its overflow detector, and its error status with the output precedence
(spec/41_decoder.md R66 to R69). The status outputs are combinational; none is stored (R20). -/

namespace Sys2Proof.Machine

/-- `24^(6-i)` (R66). -/
def weight (i : Fin 7) : Nat :=
  match i with
  | 0 => 191102976
  | 1 => 7962624
  | 2 => 331776
  | 3 => 13824
  | 4 => 576
  | 5 => 24
  | 6 => 1

/-- `S`, the exact weighted sum of seven digits, with no truncation (R67). -/
def weightedSum (g : Lanes Digit) : Nat :=
  g.l0.val * weight 0 + g.l1.val * weight 1 + g.l2.val * weight 2 + g.l3.val * weight 3
    + g.l4.val * weight 4 + g.l5.val * weight 5 + g.l6.val * weight 6

/-- One step of the Horner form: `S * 24 + zext_33(g)` in 33 bits (R67). -/
def hornerStep (s : BitVec 33) (g : Digit) : BitVec 33 := s * 24#33 + (digitBits g).setWidth 33

/-- The Horner form of the evaluator, 33 bits wide (R67). -/
def hornerSum (g : Lanes Digit) : BitVec 33 := (lanesList g).foldl hornerStep 0#33

/-- `ovf_raw = (S >= 2^32)` (R68). -/
def overflows (s : Nat) : Bool := 2 ^ 32 ≤ s

/-- `all_valid`, the conjunction of the seven validity bits (R69). -/
def allValid (v : Lanes (Option Digit)) : Bool :=
  laneValid v.l0 && laneValid v.l1 && laneValid v.l2 && laneValid v.l3 && laneValid v.l4 && laneValid v.l5 && laneValid v.l6

/-- `min { i | v[i] = 0 }`; asked only when some lane is invalid (R69). -/
def lowestInvalid (v : Lanes (Option Digit)) : BitVec 3 :=
  if !laneValid v.l0 then 0
  else if !laneValid v.l1 then 1
  else if !laneValid v.l2 then 2
  else if !laneValid v.l3 then 3
  else if !laneValid v.l4 then 4
  else if !laneValid v.l5 then 5
  else 6

/-- `S` of the lanes' digits (R67). -/
def laneSum (v : Lanes (Option Digit)) : Nat := weightedSum (lanesMap laneDigit v)

/-- `dec_err` (R69). -/
def errFlag (v : Lanes (Option Digit)) : BitVec 1 := if allValid v then 0 else 1

/-- `dec_bad_idx` (R69). -/
def badIdxFlag (v : Lanes (Option Digit)) : BitVec 3 := if allValid v then 0 else lowestInvalid v

/-- `dec_ovf`: masked by an invalid lane (R69, R95). -/
def ovfFlag (v : Lanes (Option Digit)) : BitVec 1 :=
  if allValid v then (if overflows (laneSum v) then 1 else 0) else 0

/-- `dec_out`: `S[31:0]` under the policy `WRAP` (R10, R68), 0 when some lane is invalid (R69). -/
def dataOut (v : Lanes (Option Digit)) : Block := if allValid v then BitVec.ofNat 32 (laneSum v) else 0

/-- A five-bit view of the decoder's status with `dec_err` at bit 1, as R49 words it: `{ dec_bad_idx, dec_err, dec_ovf }`. The
places of the other two are the model's (DESIGN CHOICE; notes/assumptions/8.md); no port carries the view. -/
def statusView (p : DecPorts) : BitVec 5 := p.decBadIdx ++ p.decErr ++ p.decOvf

end Sys2Proof.Machine
end

