-- ==== Sys2Proof/Machine/Units.lean ====
section
/-! DEFINITION. The two combinational units as functions from input port to all ports (spec/40_encoder.md R56 to R61;
spec/41_decoder.md R65 to R70). -/

namespace Sys2Proof.Machine

/-- `r mod 24` as a digit (R56). -/
def digitOf (r : Nat) : Digit := ⟨r % 24, Nat.mod_lt r (by decide)⟩

/-- The value left after `k` rounds `r = r div 24` of the radix decomposer (R56). -/
def remaining (v : Block) : Nat → Nat
  | 0 => v.toNat
  | k + 1 => remaining v k / 24

/-- The radix decomposer: the round that yields digit `i` comes after `6 - i` divisions (R56). -/
def decompose (v : Block) : Lanes Digit := lanesOf fun i => digitOf (remaining v (6 - i.val))

/-- base24_encoder: `enc_dig` from the decomposer, `enc_sym` through the ROM lanes (R56, R59, R61). -/
def encEval (v : Block) : EncPorts where
  encIn := v
  encDig := packDigits (lanesMap digitBits (decompose v))
  encSym := packSymbols (lanesMap alpha (decompose v))

/-- The seven validator lanes of a group (R65). -/
def validate (c : Group) : Lanes (Option Digit) := lanesMap inv (symbolLanes c)

/-- base24_decoder: validator lanes, exact sum, overflow and error status (R65, R67 to R70). -/
def decEval (c : Group) : DecPorts where
  decSym := c
  decOut := dataOut (validate c)
  decErr := errFlag (validate c)
  decBadIdx := badIdxFlag (validate c)
  decOvf := ovfFlag (validate c)

end Sys2Proof.Machine
end

