-- ==== Sys2Proof/Machine/Ops.lean ====
section
/-! DEFINITION. The shared operations over the ports: selecting, driving, settling, and reading the presented operation.

There is no memory and no register to operate on (R18, R30), and no exception to take or to return from: nothing traps
(R96 to R98). An error is a value on `dec_err` and `dec_bad_idx`. -/

namespace Sys2Proof.Machine

/-- The selector of R50 set to an operation. -/
def State.select (s : State) (b : BitVec 1) : State := { s with op := b }

/-- The host drives `enc_in` (R26). The outputs are not touched: they are sampled only once settled (R109). -/
def State.driveEnc (s : State) (v : Block) : State := { s with enc := { s.enc with encIn := v } }

/-- The host drives `dec_sym` (R27). -/
def State.driveDec (s : State) (c : Group) : State := { s with dec := { s.dec with decSym := c } }

/-- The propagation delay has elapsed: both units' outputs are the functions of their inputs (R107, R109). Both units always
evaluate, whichever the host reads (R50; DEDUCED, safe: notes/assumptions/3.md). -/
def State.settle (s : State) : State := { s with enc := encEval s.enc.encIn, dec := decEval s.dec.decSym }

/-- `enc_sym` as anything outside the encoder observes it, a host or a bus wired to `dec_sym`: after the delay, never before
(R48, R107, R109). What the output field shows until then is not read. -/
def State.sampledEncSym (s : State) : Group := s.settle.enc.encSym

/-- The host presents an operation: it selects the unit and drives its input (R50). -/
def State.present (s : State) : Instr → State
  | .enc v => (s.select 0).driveEnc v
  | .dec c => (s.select 1).driveDec c

/-- The host presents an operation by its line word: on the selector and on the selected unit's input bus; bits above that bus have
no wire (notes/assumptions/5.md). -/
def State.presentWord (s : State) (w : LineWord) : State :=
  if wordSelector w = 0 then (s.select 0).driveEnc (wordEncBus w) else (s.select 1).driveDec (wordDecBus w)

/-- The line word that stands on the selector and on the selected unit's input bus (R50, R54). -/
def fetchWord (s : State) : LineWord :=
  if s.op = 0 then lineWord s.op (s.enc.encIn.setWidth 56) else lineWord s.op s.dec.decSym

/-- The ports while the `n`-th change of an input, or power-up, has not yet settled: every output shows any value (R107, R109;
notes/assumptions/4.md). -/
def State.unsettled (s : State) (n : Nat) : State :=
  { s with
    enc := { s.enc with encDig := Config.unsettledEncDig n, encSym := Config.unsettledEncSym n }
    dec := { s.dec with
      decOut := Config.unsettledDecOut n
      decErr := Config.unsettledDecErr n
      decBadIdx := Config.unsettledDecBadIdx n
      decOvf := Config.unsettledDecOvf n } }

end Sys2Proof.Machine
end

