-- ==== Sys2Proof/Machine/Dec.lean ====
section
/-! DEFINITION. The meaning of `DEC` (spec/41_decoder.md R70). -/

namespace Sys2Proof.Machine

/-- `DEC` (R70): the group on `dec_sym`, one evaluation, `dec_out` and the status outputs settled. An invalid code is reported
as `dec_err = 1` and an overflowing group as `dec_ovf = 1`; neither traps (R68, R69, R96). -/
def execDec (c : Group) (s : State) : Host.Outcome State Fault Refusal :=
  .next ((s.select 1).driveDec c).settle

end Sys2Proof.Machine
end

