-- ==== Sys2Proof/Machine/Enc.lean ====
section
/-! DEFINITION. The meaning of `ENC` (spec/40_encoder.md R61). -/

namespace Sys2Proof.Machine

/-- `ENC` (R61): the block on `enc_in`, one evaluation, `enc_dig` and `enc_sym` settled. It writes no flag and has no exception:
every block is legal (R52). -/
def execEnc (v : Block) (s : State) : Host.Outcome State Fault Refusal :=
  .next ((s.select 0).driveEnc v).settle

end Sys2Proof.Machine
end

