-- ==== Sys2Proof/Machine/Dispatch.lean ====
section
/-! DEFINITION. The dispatch of the operations to their meanings. -/

namespace Sys2Proof.Machine

def exec (i : Instr) (s : State) : Host.Outcome State Fault Refusal :=
  match i with
  | .enc v => Sys2Proof.Machine.execEnc v s
  | .dec c => Sys2Proof.Machine.execDec c s

end Sys2Proof.Machine
end

