-- ==== Sys2Proof/Machine/Step.lean ====
section
/-! DEFINITION. One step: one evaluation of what the host presents (spec/10_state.md R19; spec/70_reset_and_hazards.md R109). -/

namespace Sys2Proof.Machine

/-- One atomic evaluation, from the stable input values to the settled output values (R109). Nothing advances: presented the
same inputs, the next step is the same evaluation (R19, R36). -/
def step (s : State) : Host.Outcome State Fault Refusal :=
  match decode (fetchWord s) with
  | .ok i => exec i s
  | .error e => .refused (.undecodableLine e)

/-- The host presents the operation whose bits are `w`, numbered as spec/opcode_table.json numbers them, so that the very next
step runs it. This is how any operation comes to run: the units fetch nothing (R42; notes/assumptions/6.md). -/
def State.withFetchWord (s : State) (nbits w : Nat) : State := s.presentWord (tableWord nbits w)

end Sys2Proof.Machine
end

