-- ==== Sys2Proof/Machine/Assembly.lean ====
section
/-! DEFINITION. The written form of operation lines and pseudo-operations (spec/30_encoding.md R54, R55, D15), over ASCII codes
(R15). Hex digits are read in either case and printed in upper case; the quoted forms take printable codes; a space after a comma
is optional (DESIGN CHOICE, safe: notes/assumptions/9.md). -/

namespace Sys2Proof.Machine

/-- The ASCII codes of a list of characters (R15). -/
def ascii (cs : List Char) : List Byte := cs.map fun c => BitVec.ofNat 8 c.toNat

/-- The upper-case hex digit of a number below 16. -/
def hexDigit (n : Nat) : Byte := if n < 10 then BitVec.ofNat 8 (0x30 + n) else BitVec.ofNat 8 (0x37 + n)

/-- The value of a hex digit. -/
def hexValue (c : Byte) : Option Nat :=
  if 0x30 ≤ c.toNat ∧ c.toNat ≤ 0x39 then some (c.toNat - 0x30)
  else if 0x41 ≤ c.toNat ∧ c.toNat ≤ 0x46 then some (c.toNat - 0x37)
  else if 0x61 ≤ c.toNat ∧ c.toNat ≤ 0x66 then some (c.toNat - 0x57)
  else none

/-- `k` hex digits of `n`, most significant first. -/
def printHex : Nat → Nat → List Byte
  | 0, _ => []
  | k + 1, n => printHex k (n / 16) ++ [hexDigit (n % 16)]

/-- The number that hex digits write, after a prefix worth `acc`. -/
def readHex (acc : Nat) : List Byte → Option Nat
  | [] => some acc
  | c :: rest =>
    match hexValue c with
    | some d => readHex (acc * 16 + d) rest
    | none => none

/-- A number written in exactly `k` hex digits. -/
def readHexExactly (k : Nat) (t : List Byte) : Option Nat := if t.length = k then readHex 0 t else none

/-- The rest of a text that begins with a word. -/
def dropWord : List Byte → List Byte → Option (List Byte)
  | [], t => some t
  | _ :: _, [] => none
  | w :: ws, c :: cs => if w = c then dropWord ws cs else none

/-- A printable ASCII code. -/
def printable (c : Byte) : Bool := 0x20 ≤ c.toNat && c.toNat ≤ 0x7E

/-- `ENC 0x` -/
def wordEncHex : List Byte := ascii ['E', 'N', 'C', ' ', '0', 'x']

/-- `DEC 0x` -/
def wordDecHex : List Byte := ascii ['D', 'E', 'C', ' ', '0', 'x']

/-- `DEC "` -/
def wordDecText : List Byte := ascii ['D', 'E', 'C', ' ', '"']

/-- `ENCODE [` -/
def wordEncode : List Byte := ascii ['E', 'N', 'C', 'O', 'D', 'E', ' ', '[']

/-- `DECODE "` -/
def wordDecode : List Byte := ascii ['D', 'E', 'C', 'O', 'D', 'E', ' ', '"']

/-- The printable text before a closing double quote that ends the line. -/
def readQuoted : List Byte → Option (List Byte)
  | [] => none
  | c :: rest =>
    if rest = [] then (if c = 0x22 then some [] else none)
    else if printable c then (readQuoted rest).map (c :: ·) else none

/-- Seven codes packed as a group (R48). -/
def groupOfText : List Byte → Option Group
  | [c0, c1, c2, c3, c4, c5, c6] =>
    some (packSymbols { l0 := c0, l1 := c1, l2 := c2, l3 := c3, l4 := c4, l5 := c5, l6 := c6 })
  | _ => none

/-- An operation line as written (R54): `ENC 0xHHHHHHHH`, `DEC 0xHHHHHHHHHHHHHH` or `DEC "sssssss"`. -/
def readLine (t : List Byte) : Option Instr :=
  match dropWord wordEncHex t, dropWord wordDecHex t, dropWord wordDecText t with
  | some ds, _, _ => (readHexExactly 8 ds).map fun n => .enc (BitVec.ofNat 32 n)
  | none, some ds, _ => (readHexExactly 14 ds).map fun n => .dec (BitVec.ofNat 56 n)
  | none, none, some q => ((readQuoted q).bind groupOfText).map Instr.dec
  | none, none, none => none

/-- The hex form of an operation line (R54), which every operation has. -/
def printLine : Instr → List Byte
  | .enc v => wordEncHex ++ printHex 8 v.toNat
  | .dec c => wordDecHex ++ printHex 14 c.toNat

/-- The quoted form of `DEC` (R54), for groups of printable codes. -/
def printDecText (c : Group) : List Byte := wordDecText ++ groupText c ++ [0x22]

/-- The byte written `0xHH`. -/
def readByte (h l : Byte) : Option Byte := (readHexExactly 2 [h, l]).map (BitVec.ofNat 8)

/-- The bytes `0xHH, 0xHH, ...` before a closing bracket that ends the line; at least one. -/
def readItems : List Byte → Option (List Byte)
  | z :: x :: h :: l :: stop :: rest =>
    if z = 0x30 ∧ x = 0x78 then
      match readByte h l, rest with
      | none, _ => none
      | some b, [] => if stop = 0x5D then some [b] else none
      | some b, sp :: rest' =>
        if stop = 0x2C then (if sp = 0x20 then readItems rest' else readItems (sp :: rest')).map (b :: ·) else none
    else none
  | _ => none

/-- A pseudo-operation as written (R55): `ENCODE [0xHH, ...]` or `DECODE "..."`. -/
def readHostOp (t : List Byte) : Option HostOp :=
  match dropWord wordEncode t, dropWord wordDecode t with
  | some items, _ => if items = [0x5D] then some (.encode []) else (readItems items).map HostOp.encode
  | none, some q => (readQuoted q).map HostOp.decode
  | none, none => none

end Sys2Proof.Machine
end

