-- ==== Sys2Proof/Machine/Stream.lean ====
section
/-! DEFINITION. The host layer's `encode` and `decode` over sequences, as functions (spec/42_stream_reference.md R75 to R88;
spec/60_exceptions.md R92 to R95). It is a reference, not hardware (spec/00_scope.md R4). -/

namespace Sys2Proof.Machine

/-- The three conditions of the one error kind `InvalidInput` (R92). -/
inductive InvalidKind where
  /-- `ENC_LENGTH`: raised by `encode` on a length that is no multiple of 4 (R77) -/
  | encLength
  /-- `DEC_LENGTH`: raised by `decode` on a length that is no multiple of 7 (R79) -/
  | decLength
  /-- `DEC_INVALID_CHAR`: raised by `decode` on a code outside the alphabet (R80) -/
  | decInvalidChar
  deriving DecidableEq, Repr

/-- What a host call returns: a value, or a failure with its condition and recorded position, never both (R76). -/
inductive HostResult (α : Type) where
  /-- `ok(value)` -/
  | ok (value : α)
  /-- `fail InvalidInput(kind, info)` -/
  | fail (kind : InvalidKind) (info : Option Nat)
  deriving DecidableEq, Repr

/-- The condition's code (R92, D8). -/
def InvalidKind.code : InvalidKind → Nat
  | .encLength => 1
  | .decLength => 2
  | .decInvalidChar => 3

/-- The condition's message, verbatim (R92). -/
def InvalidKind.message : InvalidKind → String
  | .encLength => "Input to encode must have a length multiple of 4"
  | .decLength => "Input to decode must have a length multiple of 7"
  | .decInvalidChar => "Input to decode contains an invalid character"

/-- The code of a result, 0 `OK` where there is no error (R92). -/
def HostResult.code {α : Type} : HostResult α → Nat
  | .ok _ => 0
  | .fail kind _ => kind.code

/-- `uppercase` of a text (R85, R86). -/
def upperText (t : List Byte) : List Byte := t.map caseNorm

/-- `lowercase` of a text (R86). -/
def lowerText (t : List Byte) : List Byte := t.map lowerCase

/-- The consecutive 4-byte blocks of a byte sequence, in order (R34, R78). -/
def blocksOf : List Byte → List Block
  | b0 :: b1 :: b2 :: b3 :: rest => blockOfBytes b0 b1 b2 b3 :: blocksOf rest
  | _ => []

/-- The consecutive 7-code groups of a text, in order (R34, R81). -/
def groupsOf : List Byte → List Group
  | c0 :: c1 :: c2 :: c3 :: c4 :: c5 :: c6 :: rest =>
    packSymbols { l0 := c0, l1 := c1, l2 := c2, l3 := c3, l4 := c4, l5 := c5, l6 := c6 } :: groupsOf rest
  | _ => []

/-- `encode(x)` (R77, R78). -/
def encodeStream (x : List Byte) : HostResult (List Byte) :=
  if x.length % 4 ≠ 0 then .fail .encLength none
  else .ok ((blocksOf x).flatMap fun v => groupText (encEval v).encSym)

/-- `7*k0 + dec_bad_idx(k0)` for the lowest group `k0` with `dec_err = 1`, counting groups from `k` (R80). -/
def firstBadFrom (k : Nat) : List DecPorts → Option Nat
  | [] => none
  | p :: rest => if p.decErr = 1 then some (7 * k + p.decBadIdx.toNat) else firstBadFrom (k + 1) rest

/-- The end of a `decode` whose groups have all been evaluated: fail whole on the lowest bad position, or emit every group's four
bytes, discarding `dec_ovf` (R80, R81). -/
def collectDecoded (r : List DecPorts) : HostResult (List Byte) :=
  match firstBadFrom 0 r with
  | some pos => .fail .decInvalidChar (some pos)
  | none => .ok (r.flatMap fun p => blockBytes p.decOut)

/-- `decode(t)`: length first, then characters, the result last (R79 to R82). -/
def decodeStream (t : List Byte) : HostResult (List Byte) :=
  if t.length % 7 ≠ 0 then .fail .decLength none else collectDecoded ((groupsOf t).map decEval)

/-- The array representation's integers as a byte sequence, where every one is in 0..255; the host refuses any other array before
it calls (R75, D17, D20). -/
def bytesOfArray : List Int → Option (List Byte)
  | [] => some []
  | n :: rest => if 0 ≤ n ∧ n ≤ 255 then (bytesOfArray rest).map (BitVec.ofNat 8 n.toNat :: ·) else none

/-- `encode` over the array representation (R75). -/
def encodeArray (a : List Int) : Option (HostResult (List Byte)) := (bytesOfArray a).map encodeStream

end Sys2Proof.Machine
end

