-- ==== Sys2Proof/Machine/Bank.lean ====
section
/-! DEFINITION. Replicated units: any number of encoder and decoder instances that share nothing but the constant ROM
(spec/00_scope.md R12; spec/20_memory.md R39, R44; spec/60_exceptions.md R103). An instance is named here by its place in the
integrator's list; the hardware gives instances no identifiers (R103). -/

namespace Sys2Proof.Machine

/-- The ports of every instance. -/
structure Bank where
  /-- the encoder instances -/
  encs : List EncPorts
  /-- the decoder instances -/
  decs : List DecPorts
  deriving DecidableEq, Repr

/-- One evaluation on one instance. -/
inductive BankOp where
  /-- `ENC` of `v` on encoder `k` -/
  | enc (k : Nat) (v : Block)
  /-- `DEC` of `c` on decoder `k` -/
  | dec (k : Nat) (c : Group)
  deriving DecidableEq, Repr

/-- The integrator's bank: `N_ENC` encoders and `N_DEC` decoders (R12) in the port state of reset. -/
def Bank.reset : Bank where
  encs := List.replicate Config.nEnc State.reset.enc
  decs := List.replicate Config.nDec State.reset.dec

/-- One evaluation; `none` where the bank has no such instance. -/
def Bank.eval (b : Bank) : BankOp → Option Bank
  | .enc k v => if k < b.encs.length then some { b with encs := b.encs.set k (encEval v) } else none
  | .dec k c => if k < b.decs.length then some { b with decs := b.decs.set k (decEval c) } else none

/-- Evaluations in any order, by any number of hosts (R39). -/
def Bank.run (b : Bank) : List BankOp → Option Bank
  | [] => some b
  | o :: rest =>
    match b.eval o with
    | some b' => Bank.run b' rest
    | none => none

/-- The blocks of one sequence evaluated on several instances, each block on the instance named beside it, its symbols read
from that instance (R103). -/
def Bank.encodeOn (b : Bank) : List (Nat × Block) → Option (List Byte)
  | [] => some []
  | (k, v) :: rest =>
    match b.eval (.enc k v) with
    | some b' =>
      match b'.encs[k]?, Bank.encodeOn b' rest with
      | some p, some text => some (groupText p.encSym ++ text)
      | _, _ => none
    | none => none

/-- The groups of one text evaluated on several instances, each group's ports read from its own instance (R81, R103). -/
def Bank.decodeOn (b : Bank) : List (Nat × Group) → Option (List DecPorts)
  | [] => some []
  | (k, c) :: rest =>
    match b.eval (.dec k c) with
    | some b' =>
      match b'.decs[k]?, Bank.decodeOn b' rest with
      | some p, some ps => some (p :: ps)
      | _, _ => none
    | none => none

end Sys2Proof.Machine
end

