-- ==== Sys2Proof/Machine/Program.lean ====
section
/-! DEFINITION. Programs: the lines a host presents to the machine one after another, and the pseudo-operations run as such
lines (spec/30_encoding.md R54, R55; spec/42_stream_reference.md R78, R81; spec/95_test_vectors.md section 3). -/

namespace Sys2Proof.Machine

/-- The operation a line stands for when it is reached. A wired line takes the encoder's settled symbols, whatever the output showed
before (R107, R109). -/
def lineInstr (s : State) : Line → Instr
  | .op i => i
  | .decOfEncSym => .dec s.sampledEncSym

/-- Present a line, let the units settle, and go on: the settled state after each line (the end state of a program is the settled
outputs of each of its lines). -/
def runLines : List Line → State → Host.Outcome (List State) Fault Refusal
  | [], _ => .next []
  | l :: rest, s =>
    match step (s.present (lineInstr s l)) with
    | .next t =>
      match runLines rest t with
      | .next trace => .next (t :: trace)
      | .fault r => .fault r
      | .refused r => .refused r
    | .fault r => .fault r
    | .refused r => .refused r

/-- The lines of a pseudo-operation (R55): one for each block or group in order, none where the length check fails, since then no
unit is evaluated (R77, R79, R82). -/
def HostOp.expand : HostOp → List Line
  | .encode x => if x.length % 4 ≠ 0 then [] else (blocksOf x).map fun v => .op (.enc v)
  | .decode t => if t.length % 7 ≠ 0 then [] else (groupsOf t).map fun c => .op (.dec c)

/-- What the host returns from the settled states it sampled after each line (R78, R80, R81). -/
def hostResult : HostOp → List State → HostResult (List Byte)
  | .encode x, trace =>
    if x.length % 4 ≠ 0 then .fail .encLength none else .ok (trace.flatMap fun t => groupText t.enc.encSym)
  | .decode x, trace =>
    if x.length % 7 ≠ 0 then .fail .decLength none else collectDecoded (trace.map fun t => t.dec)

/-- A pseudo-operation run on the machine from a state. -/
def runHostOp (op : HostOp) (s : State) : Host.Outcome (HostResult (List Byte)) Fault Refusal :=
  match runLines (HostOp.expand op) s with
  | .next trace => .next (hostResult op trace)
  | .fault r => .fault r
  | .refused r => .refused r

end Sys2Proof.Machine
end

