-- ==== Sys2Proof/Safety.lean ====
section
/-! DEFINITION. What claims call a good state: the outputs have settled (spec/70_reset_and_hazards.md R109), and every port
carries only values that its unit produces (spec/40_encoder.md R58, R60; spec/41_decoder.md R69). -/

namespace Sys2Proof.Machine

/-- The outputs a host may sample: each unit's outputs are its function of the inputs now driven (R29, R107, R109). -/
abbrev State.Settled (s : State) : Prop := s.enc = encEval s.enc.encIn ∧ s.dec = decEval s.dec.decSym

/-- What `enc_dig` and `enc_sym` can carry once settled: digits 0..23, digit 0 at most 22, and upper-case alphabet codes
(R52, R58, R60). -/
def EncLegal (p : EncPorts) : Prop :=
  (∀ i : Fin 7, (digitField p.encDig i).toNat ≤ 23) ∧ (digitField p.encDig 0).toNat ≤ 22
    ∧ ∀ i : Fin 7, ∃ d : Digit, symbolField p.encSym i = alpha d

/-- What the decoder's outputs can carry once settled: an index 0..6, no index without an error, and neither data nor overflow with
one (R49, R69). -/
def DecLegal (p : DecPorts) : Prop :=
  p.decBadIdx.toNat ≤ 6 ∧ (p.decErr = 0 → p.decBadIdx = 0) ∧ (p.decErr = 1 → p.decOut = 0 ∧ p.decOvf = 0)

/-- Every code of a group is an alphabet code after case normalisation (R52, R64). -/
def CodesValid (c : Group) : Prop := ∀ i : Fin 7, ∃ d : Digit, caseNorm (symbolField c i) = alpha d

/-- The weighted sum of seven digits, in the summation form of the spec (R57, R67). -/
def valueOf (d : Fin 7 → Digit) : Nat := ∑ i : Fin 7, (d i).val * 24 ^ (6 - i.val)

/-- The weighted sum `S` of a group's lanes (R67). -/
def groupValue (c : Group) : Nat := valueOf fun i => laneDigit (inv (symbolField c i))

/-- Every port carries only values its unit produces. -/
def State.Legal (s : State) : Prop := EncLegal s.enc ∧ DecLegal s.dec

end Sys2Proof.Machine
end

