-- ==== Sys2Proof/Certificates/Slice0/Obligations.lean ====
section
/-! DEFINITION. The statements for the provers: what the spec's numbered rules say the machine and its host layer do. -/

open Sys2Proof Sys2Proof.Machine

/-! ### Encodings -/

/-- Decoding an operation's word gives the operation back, and a word that decodes is its operation's word: no operand bit of
either format is dropped (R46, R48: every bus bit is an operand bit). The one-word layout is the model's choice
(notes/assumptions/5.md). -/
def Obligations.DecodeAndEncodeAgree : Prop :=
  (∀ i : Instr, i.wf = true → decode (encode i) = .ok i) ∧ (∀ (w : LineWord) (i : Instr), decode w = .ok i → encode i = w)

/-- A word is refused exactly when a bit above its format's bus is set, and by the name of that bus. The refusal is the model's
choice (notes/assumptions/5.md): the spec gives no wire to such a bit (R45). -/
def Obligations.WordsAboveTheBusAreRefusedByName : Prop :=
  ∀ w : LineWord,
    (decode w = .error .encBusTooWide ↔ w.toNat % 2 = 0 ∧ 2 ^ 33 ≤ w.toNat)
      ∧ (decode w = .error .decBusTooWide ↔ w.toNat % 2 = 1 ∧ 2 ^ 57 ≤ w.toNat)

/-- Four words written out from the pairs (op, bus value) of spec/95_test_vectors.md P1 and P5 decode to their lines. The word's
layout is the model's choice (notes/assumptions/5.md). -/
def Obligations.WordsOfTheSpecDecode : Prop :=
  decode 0x1BD5B7DDE = .ok (.enc 0xDEADBEEF) ∧ decode 0x2468ACF0 = .ok (.enc 0x12345678)
    ∧ decode 0x6AB28A82A8B083 = .ok (.dec 0x35594541545841) ∧ decode 0x110AA6622 = .ok (.enc 0x88553311)
    ∧ decode 0xB06A8E8E84906F = .ok (.dec 0x58354747424837)

/-- Every word is a word of exactly one row of spec/opcode_table.json, and where it decodes, of the row that its operation's
mnemonic names: both values of `op` are defined and none is reserved (R50). -/
def Obligations.OpcodeRowsSplitTheWords : Prop :=
  ∀ w : LineWord,
    (∃ r ∈ opcodeTable, r.covers w = true ∧ ∀ q ∈ opcodeTable, q.covers w = true → q = r)
      ∧ ∀ i : Instr, decode w = .ok i → ∀ r ∈ opcodeTable, r.covers w = true → r.mnemonic = i.mnemonic

/-- The written form of an operation line reads back as the operation: the hex form for every operation, the quoted form of `DEC`
for every group of printable codes (R54). -/
def Obligations.WrittenLinesReadBack : Prop :=
  (∀ i : Instr, readLine (printLine i) = some i)
    ∧ ∀ c : Group, (∀ i : Fin 7, printable (symbolField c i) = true) → readLine (printDecText c) = some (.dec c)

/-! ### The step -/

/-- A step runs the operation that the presented word decodes to. -/
def Obligations.StepRunsDecodedOperation : Prop :=
  ∀ (s : State) (i : Instr), decode (fetchWord s) = .ok i → i.wf = true → step s = exec i s

/-- Presenting an operation, by its operand or by its word, makes the very next step run it, from any state. -/
def Obligations.PresentedOperationRunsNext : Prop :=
  ∀ (s : State) (i : Instr),
    decode (fetchWord (s.present i)) = .ok i ∧ step (s.present i) = exec i s
      ∧ s.withFetchWord 64 (encode i).toNat = s.present i

/-- Nothing traps and nothing fails: every step from every state answers a next state, and it changes no input and no selector
(R94, R96). -/
def Obligations.EveryStepAnswersNext : Prop :=
  ∀ s : State, ∃ t : State, step s = .next t ∧ t.op = s.op ∧ t.enc.encIn = s.enc.encIn ∧ t.dec.decSym = s.dec.decSym

/-! ### The encoder -/

/-- `ENC` completes from every state, for every block: its digits are the block's base-24 digits, most significant first, and each
symbol is its digit's entry in the ROM (R56, R59, R61). -/
def Obligations.EncCompletesWithDigitsAndSymbols : Prop :=
  ∀ (v : Block) (s : State), ∃ t : State, exec (.enc v) s = .next t ∧ t.op = 0 ∧ t.enc.encIn = v
    ∧ ∀ i : Fin 7, (digitField t.enc.encDig i).toNat = v.toNat / 24 ^ (6 - i.val) % 24
        ∧ symbolField t.enc.encSym i = alpha (digitOf (v.toNat / 24 ^ (6 - i.val)))

/-- The output fields of `ENC` stand where its format puts them: the digits on `enc_dig` at bits 34, 29, ..., 4 downward and the
symbols on `enc_sym` at bits 55, 47, ..., 7 downward (R47). -/
def Obligations.EncOutputFieldsStandInPlace : Prop :=
  ∀ (v : Block) (s : State), ∃ t : State, exec (.enc v) s = .next t
    ∧ t.enc.encDig.extractLsb' 30 5 = digitBits (digitOf (v.toNat / 24 ^ 6)) ∧ t.enc.encSym.extractLsb' 48 8 = alpha (digitOf (v.toNat / 24 ^ 6))
    ∧ t.enc.encDig.extractLsb' 25 5 = digitBits (digitOf (v.toNat / 24 ^ 5)) ∧ t.enc.encSym.extractLsb' 40 8 = alpha (digitOf (v.toNat / 24 ^ 5))
    ∧ t.enc.encDig.extractLsb' 20 5 = digitBits (digitOf (v.toNat / 24 ^ 4)) ∧ t.enc.encSym.extractLsb' 32 8 = alpha (digitOf (v.toNat / 24 ^ 4))
    ∧ t.enc.encDig.extractLsb' 15 5 = digitBits (digitOf (v.toNat / 24 ^ 3)) ∧ t.enc.encSym.extractLsb' 24 8 = alpha (digitOf (v.toNat / 24 ^ 3))
    ∧ t.enc.encDig.extractLsb' 10 5 = digitBits (digitOf (v.toNat / 24 ^ 2)) ∧ t.enc.encSym.extractLsb' 16 8 = alpha (digitOf (v.toNat / 24 ^ 2))
    ∧ t.enc.encDig.extractLsb' 5 5 = digitBits (digitOf (v.toNat / 24)) ∧ t.enc.encSym.extractLsb' 8 8 = alpha (digitOf (v.toNat / 24))
    ∧ t.enc.encDig.extractLsb' 0 5 = digitBits (digitOf v.toNat) ∧ t.enc.encSym.extractLsb' 0 8 = alpha (digitOf v.toNat)

/-- The frame of `ENC`: the decoder's input is unchanged, and so is every port of a settled decoder; in any state the decoder's ports
afterwards are its function of its own input (R1, R50: the two units are separate circuits). -/
def Obligations.EncLeavesTheDecoderAlone : Prop :=
  ∀ (v : Block) (s : State), ∃ t : State, exec (.enc v) s = .next t
    ∧ t.dec.decSym = s.dec.decSym ∧ t.dec = decEval s.dec.decSym ∧ (s.dec = decEval s.dec.decSym → t.dec = s.dec)

/-- The digits on `enc_dig` represent the block exactly and uniquely, each is in 0..23, and nothing is left over after the seven
rounds (R57). -/
def Obligations.DigitsRepresentTheBlock : Prop :=
  ∀ v : Block, v.toNat = ∑ i : Fin 7, (digitField (encEval v).encDig i).toNat * 24 ^ (6 - i.val)
    ∧ (∀ i : Fin 7, (digitField (encEval v).encDig i).toNat ≤ 23) ∧ remaining v 7 = 0
    ∧ ∀ d : Fin 7 → Digit, v.toNat = valueOf d → ∀ i : Fin 7, (digitField (encEval v).encDig i).toNat = (d i).val

/-- Which digits occur: digits 1 to 6 take every value 0..23, digit 0 exactly 0..22, no field holds 24..31, and the first symbol is
never `Y`. The spec marks this as its own inference (R58, "derived: from rule R56 and 00_scope.md rule R7"). -/
def Obligations.DigitRanges : Prop :=
  (∀ v : Block, (digitField (encEval v).encDig 0).toNat ≤ 22 ∧ symbolField (encEval v).encSym 0 ≠ 0x59
      ∧ ∀ i : Fin 7, (digitField (encEval v).encDig i).toNat ≤ 23)
    ∧ (∀ i : Fin 7, 1 ≤ i.val → ∀ n : Nat, n ≤ 23 → ∃ v : Block, (digitField (encEval v).encDig i).toNat = n)
    ∧ ∀ n : Nat, n ≤ 22 → ∃ v : Block, (digitField (encEval v).encDig 0).toNat = n

/-- Every code on `enc_sym` is one of the 24 upper-case alphabet codes, none a lower-case one (R60). -/
def Obligations.EncEmitsCanonicalCodes : Prop :=
  ∀ (v : Block) (s : State), ∃ t : State, exec (.enc v) s = .next t
    ∧ ∀ i : Fin 7, (∃ d : Digit, symbolField t.enc.encSym i = alpha d)
        ∧ ¬ (0x61 ≤ (symbolField t.enc.encSym i).toNat ∧ (symbolField t.enc.encSym i).toNat ≤ 0x7A)

/-! ### The decoder -/

/-- The alphabet is a bijection between 0..23 and its 24 codes, which are 16 letters and the 8 decimal digits 2 to 9 (R25). -/
def Obligations.AlphabetIsABijection : Prop :=
  (∀ d e : Digit, alpha d = alpha e → d = e)
    ∧ (∀ (c : Byte) (d : Digit), alphaInverse c = some d ↔ alpha d = c)
    ∧ (∀ c : Byte, (∃ d : Digit, alpha d = c) ↔ c ∈ ascii ['Z', 'A', 'C', 'B', 'E', 'F', 'G', 'H', 'T', 'K', 'P', 'R', 'S', 'W',
        'X', 'Y', '2', '3', '4', '5', '6', '7', '8', '9'])
    ∧ ∀ c : Byte, c ∈ ascii ['0', '1', 'D', 'I', 'J', 'L', 'M', 'N', 'O', 'Q', 'U', 'V'] → ∀ d : Digit, alpha d ≠ c

/-- The validator: case normalisation changes the 26 lower-case letter codes only; a code is valid exactly when its normal form is
a symbol, and has that symbol's digit; an invalid lane's digit is 0; and the accepted codes are 40: the 24 of the alphabet and 16
lower-case letters (R63, R64). -/
def Obligations.ValidatorAcceptsFortyCodes : Prop :=
  (∀ c : Byte, caseNorm c = if 0x61 ≤ c.toNat ∧ c.toNat ≤ 0x7A then c - 0x20 else c)
    ∧ (∀ (c : Byte) (d : Digit), caseNorm c = alpha d → laneValid (inv c) = true ∧ laneDigit (inv c) = d)
    ∧ (∀ c : Byte, (∀ d : Digit, caseNorm c ≠ alpha d) → laneValid (inv c) = false ∧ laneDigit (inv c) = 0)
    ∧ (∀ c : Byte, laneValid (inv c) = true ↔ (∃ d : Digit, c = alpha d)
        ∨ c ∈ ascii ['a', 'b', 'c', 'e', 'f', 'g', 'h', 'k', 'p', 'r', 's', 't', 'w', 'x', 'y', 'z'])
    ∧ ((List.range 256).filter fun n => laneValid (inv (BitVec.ofNat 8 n))).length = 40

/-- `DEC` of seven valid codes completes from every state: no error, the exact sum modulo `2^32` on `dec_out`, and `dec_ovf` exactly
when the sum is at least `2^32` (R10, the policy `WRAP`). That the same step leaves the encoder's ports settled on the block it is
driven with is the model's reading of R50, no part of R10 (notes/assumptions/3.md). -/
def Obligations.DecCompletesOnValidCodes : Prop :=
  ∀ (c : Group) (s : State) (d : Fin 7 → Digit), (∀ i : Fin 7, caseNorm (symbolField c i) = alpha (d i)) →
    exec (.dec c) s = .next
      { op := 1, enc := encEval s.enc.encIn
        dec := { decSym := c, decOut := BitVec.ofNat 32 (valueOf d), decErr := 0, decBadIdx := 0,
                 decOvf := if 2 ^ 32 ≤ valueOf d then 1 else 0 } }

/-- `DEC` of a group whose lowest invalid code is in lane `k` completes from every state: `dec_err` is 1, `dec_bad_idx` is `k`, and
neither data nor overflow leaks (R69, R70, R95). That the same step leaves the encoder's ports settled on the block it is driven
with is the model's reading of R50 (notes/assumptions/3.md). -/
def Obligations.DecReportsTheLowestInvalidCode : Prop :=
  ∀ (c : Group) (s : State) (k : Fin 7), (∀ d : Digit, caseNorm (symbolField c k) ≠ alpha d) →
    (∀ j : Fin 7, j < k → ∃ d : Digit, caseNorm (symbolField c j) = alpha d) →
    exec (.dec c) s = .next
      { op := 1, enc := encEval s.enc.encIn
        dec := { decSym := c, decOut := 0, decErr := 1, decBadIdx := BitVec.ofNat 3 k.val, decOvf := 0 } }

/-- Error status and output precedence for every group: with `all_valid` the clauses of an error-free group, without it those of an
error (R69). -/
def Obligations.ErrorStatusAndPrecedence : Prop :=
  ∀ (c : Group) (s : State), ∃ t : State, exec (.dec c) s = .next t
    ∧ (CodesValid c → t.dec.decErr = 0 ∧ t.dec.decBadIdx = 0 ∧ t.dec.decOut.toNat = groupValue c % 2 ^ 32
        ∧ (t.dec.decOvf = 1 ↔ 2 ^ 32 ≤ groupValue c))
    ∧ (¬ CodesValid c → t.dec.decErr = 1 ∧ t.dec.decOut = 0 ∧ t.dec.decOvf = 0
        ∧ ∃ k : Fin 7, t.dec.decBadIdx.toNat = k.val ∧ inv (symbolField c k) = none
            ∧ ∀ j : Fin 7, j < k → inv (symbolField c j) ≠ none)

/-- The frame of `DEC`: the encoder's input is unchanged, and so is every port of a settled encoder; in any state the encoder's ports
afterwards are its function of its own input (R1, R50). -/
def Obligations.DecLeavesTheEncoderAlone : Prop :=
  ∀ (c : Group) (s : State), ∃ t : State, exec (.dec c) s = .next t
    ∧ t.enc.encIn = s.enc.encIn ∧ t.enc = encEval s.enc.encIn ∧ (s.enc = encEval s.enc.encIn → t.enc = s.enc)

/-- The lanes are independent: two groups that agree in lane `i` have the same validity and digit there (R65). -/
def Obligations.LanesAreIndependent : Prop :=
  ∀ (c e : Group) (i : Fin 7), symbolField c i = symbolField e i →
    lane (validate c) i = inv (symbolField c i) ∧ lane (validate c) i = lane (validate e) i

/-- The evaluator: the weights are the powers of 24, the sum is exact and below `24^7 < 2^33`, and the 33-bit Horner form gives the
same sum (R66, R67). -/
def Obligations.HornerFormIsExact : Prop :=
  (∀ i : Fin 7, weight i = 24 ^ (6 - i.val))
    ∧ [weight 0, weight 1, weight 2, weight 3, weight 4, weight 5, weight 6]
        = [0x0B640000, 0x00798000, 0x00051000, 0x00003600, 0x00000240, 0x00000018, 0x00000001]
    ∧ ∀ g : Lanes Digit, weightedSum g = valueOf (lane g) ∧ weightedSum g ≤ 4586471423 ∧ weightedSum g < 2 ^ 33
        ∧ (hornerSum g).toNat = weightedSum g

/-- Overflow: `ovf_raw` is `S >= 2^32`, which is bit 32 of `S`; there are exactly `24^7 - 2^32 = 291504128` overflowing groups of
digits, with the least sum at `X5GGBHP` and the greatest at `YYYYYYY`; and such a group is no error: it completes from every state
with the sum wrapped and `dec_ovf` set (R68). -/
def Obligations.OverflowingGroups : Prop :=
  (∀ g : Lanes Digit, (overflows (weightedSum g) = true ↔ 2 ^ 32 ≤ weightedSum g)
      ∧ overflows (weightedSum g) = (weightedSum g).testBit 32)
    ∧ (Finset.univ.filter fun d : Fin 7 → Digit => overflows (weightedSum (lanesOf d)) = true).card = 291504128
    ∧ groupValue 0x58354747424850 = 2 ^ 32 ∧ groupValue 0x59595959595959 = 4586471423
    ∧ ∀ (c : Group) (s : State), CodesValid c → 2 ^ 32 ≤ groupValue c → groupValue c ≤ 4586471423
        ∧ ∃ t : State, exec (.dec c) s = .next t ∧ t.dec.decErr = 0 ∧ t.dec.decOvf = 1
            ∧ t.dec.decOut.toNat = groupValue c % 2 ^ 32

/-- The unit-level reference vectors SV1 to SV5 and SV8 of spec/95_test_vectors.md section 1, from every state. -/
def Obligations.SourceVectorsHold : Prop :=
  ∀ s : State,
    (∃ t : State, exec (.enc 0x00000000) s = .next t ∧ t.enc.encDig = 0x000000000 ∧ t.enc.encSym = 0x5A5A5A5A5A5A5A)
    ∧ (∃ t : State, exec (.enc 0x00000001) s = .next t ∧ t.enc.encDig = 0x000000001 ∧ t.enc.encSym = 0x5A5A5A5A5A5A41)
    ∧ (∃ t : State, exec (.enc 0xFFFFFFFF) s = .next t ∧ t.enc.encDig = 0x59694914F ∧ t.enc.encSym = 0x58354747424837)
    ∧ (∃ t : State, exec (.enc 0x88553311) s = .next t ∧ t.enc.encDig = 0x2EE60B2C1 ∧ t.enc.encSym = 0x35594541545841)
    ∧ (∃ t : State, exec (.dec 0x78356767626837) s = .next t ∧ t.dec.decOut = 0xFFFFFFFF ∧ t.dec.decErr = 0 ∧ t.dec.decOvf = 0)
    ∧ ∃ t : State, exec (.dec 0x5A5A5A5A5A5A49) s = .next t ∧ t.dec.decErr = 1 ∧ t.dec.decBadIdx = 6 ∧ t.dec.decOut = 0

/-! ### Laws of the block pair -/

/-- Encode then decode is the identity on blocks, on the machine, from every state.
The spec marks this as its own inference (R72, "derived: from 40_encoder.md rule R57, rule R67 and rule R69"). -/
def Obligations.EncodeThenDecodeIsIdentity : Prop :=
  ∀ (v : Block) (s : State), ∃ t u : State, exec (.enc v) s = .next t ∧ exec (.dec t.enc.encSym) t = .next u
    ∧ u.dec.decOut = v ∧ u.dec.decErr = 0 ∧ u.dec.decOvf = 0 ∧ u.dec.decBadIdx = 0

/-- Decode then encode gives the group in upper case when nothing overflowed; after an overflow it gives the group of `S - 2^32`,
which is not the group.
The spec marks this as its own inference (R73, "derived: from rule R68 and 40_encoder.md rule R57"). -/
def Obligations.DecodeThenEncodeCanonicalises : Prop :=
  ∀ (c : Group) (s : State), ∃ t u : State, exec (.dec c) s = .next t ∧ exec (.enc t.dec.decOut) t = .next u
    ∧ (t.dec.decErr = 0 → t.dec.decOvf = 0 → ∀ i : Fin 7, symbolField u.enc.encSym i = caseNorm (symbolField c i))
    ∧ (t.dec.decOvf = 1 → CodesValid u.enc.encSym ∧ groupValue u.enc.encSym + 2 ^ 32 = groupValue c ∧ u.enc.encSym ≠ c)

/-- A group, its upper-case form and its lower-case form decode alike on all four outputs.
The spec marks this as its own inference (R74, "derived: from rule R63 and rule R64"). -/
def Obligations.DecIsCaseInsensitive : Prop :=
  ∀ (c : Group) (s : State), ∃ t u w : State, exec (.dec c) s = .next t ∧ exec (.dec (groupUpper c)) s = .next u
    ∧ exec (.dec (groupLower c)) s = .next w
    ∧ ∀ x ∈ [u, w], x.dec.decOut = t.dec.decOut ∧ x.dec.decErr = t.dec.decErr ∧ x.dec.decBadIdx = t.dec.decBadIdx
        ∧ x.dec.decOvf = t.dec.decOvf

/-! ### Invariants, reset and independence of history -/

/-- After reset every output is its unit's function of the current input (R29), and every port carries a legal value. The inputs'
own values at reset are the model's choice (notes/assumptions/2.md); nothing here names them. -/
def Obligations.ResetIsSettledAndLegal : Prop := State.reset.Settled ∧ State.reset.Legal

/-- From any ports with legal values, whatever is presented or driven and however stale the outputs are, a step and every operation
leave the ports settled and legal: digits 0..23 with digit 0 at most 22, alphabet codes, no index 7, no index without an error, no
data or overflow with one (R49, R58, R60, R69). That both units settle in one step is log 3 (notes/assumptions/3.md). -/
def Obligations.EveryStepKeepsPortsSettledAndLegal : Prop :=
  (∀ s t : State, s.Legal → step s = .next t → t.Settled ∧ t.Legal)
    ∧ ∀ (i : Instr) (s t : State), s.Legal → exec i s = .next t → t.Settled ∧ t.Legal

/-- Whatever values the outputs show before they settle, power-up included, one evaluation settles them: the state after it is the
same as without them, settled and legal (R107, R109). -/
def Obligations.OneEvaluationSettlesAnyOutputs : Prop :=
  ∀ (s : State) (n : Nat), ∃ t : State, step (s.unsettled n) = .next t ∧ step s = .next t ∧ t.Settled ∧ t.Legal

/-- An evaluation depends on nothing but its own inputs and has no side effect: two states that agree on what is presented and driven
step to the same state, whatever their outputs showed; a step drives no input; and evaluating the same input again changes nothing
(R36). -/
def Obligations.EvaluationIgnoresHistory : Prop :=
  (∀ s r : State, s.op = r.op → s.enc.encIn = r.enc.encIn → s.dec.decSym = r.dec.decSym → step s = step r)
    ∧ ∀ s t : State, step s = .next t →
        t.op = s.op ∧ t.enc.encIn = s.enc.encIn ∧ t.dec.decSym = s.dec.decSym ∧ step t = .next t

/-! ### The host layer -/

/-- A block is big-endian: its number, the places of its first and last byte, and the agreement of byte view and block view, for the
block that the encoder takes and the one that the decoder emits alike (R31). -/
def Obligations.BlocksAreBigEndian : Prop :=
  (∀ b0 b1 b2 b3 : Byte,
      (blockOfBytes b0 b1 b2 b3).toNat = b0.toNat * 2 ^ 24 + b1.toNat * 2 ^ 16 + b2.toNat * 2 ^ 8 + b3.toNat
        ∧ blockBytes (blockOfBytes b0 b1 b2 b3) = [b0, b1, b2, b3])
    ∧ ∀ v : Block, blockOfBytes (blockByte v 0) (blockByte v 1) (blockByte v 2) (blockByte v 3) = v
        ∧ blockByte v 0 = v.extractLsb' 24 8 ∧ blockByte v 1 = v.extractLsb' 16 8 ∧ blockByte v 2 = v.extractLsb' 8 8
        ∧ blockByte v 3 = v.extractLsb' 0 8

/-- Block `k` is bytes `4k` to `4k+3` and group `k` is codes `7k` to `7k+6`, and a whole sequence has no other blocks or groups
(R34). -/
def Obligations.BlocksAreAlignedToTheirSequence : Prop :=
  (∀ x : List Byte, x.length % 4 = 0 → (blocksOf x).length = x.length / 4
      ∧ ∀ (k : Nat) (v : Block) (j : Fin 4), (blocksOf x)[k]? = some v → x[4 * k + j.val]? = some (blockByte v j))
    ∧ ∀ t : List Byte, t.length % 7 = 0 → (groupsOf t).length = t.length / 7
      ∧ ∀ (k : Nat) (g : Group) (i : Fin 7), (groupsOf t)[k]? = some g → t[7 * k + i.val]? = some (symbolField g i)

/-- A length that is no multiple of 4 or of 7 fails with its own condition and message whatever the sequence holds, and no unit is
evaluated (R77, R79, R82). -/
def Obligations.BadLengthsFailFirst : Prop :=
  (∀ x : List Byte, x.length % 4 ≠ 0 →
      encodeStream x = .fail .encLength none ∧ HostOp.expand (.encode x) = [])
    ∧ (∀ t : List Byte, t.length % 7 ≠ 0 →
      decodeStream t = .fail .decLength none ∧ HostOp.expand (.decode t) = [])
    ∧ InvalidKind.encLength.message = "Input to encode must have a length multiple of 4"
    ∧ InvalidKind.decLength.message = "Input to decode must have a length multiple of 7"

/-- The empty sequences encode and decode to the empty sequence, and no unit is evaluated. The spec marks this as its own inference
(R83, "derived: from rule R77, rule R78, rule R79 and rule R81"). -/
def Obligations.EmptySequencesSucceed : Prop :=
  encodeStream [] = .ok [] ∧ decodeStream [] = .ok [] ∧ HostOp.expand (.encode []) = [] ∧ HostOp.expand (.decode []) = []

/-- `encode` of whole blocks evaluates `ENC` once per block, in block order, and returns seven codes for each, the encoder's symbols
for that block (R78). -/
def Obligations.EncodeConcatenatesBlocks : Prop :=
  ∀ x : List Byte, x.length % 4 = 0 → ∃ out : List Byte, encodeStream x = .ok out ∧ out.length = 7 * (x.length / 4)
    ∧ (HostOp.expand (.encode x)).length = x.length / 4
    ∧ ∀ (k : Nat) (i : Fin 7) (b0 b1 b2 b3 : Byte), x[4 * k]? = some b0 → x[4 * k + 1]? = some b1 → x[4 * k + 2]? = some b2 →
        x[4 * k + 3]? = some b3 →
          (HostOp.expand (.encode x))[k]? = some (.op (.enc (blockOfBytes b0 b1 b2 b3)))
            ∧ out[7 * k + i.val]? = some (symbolField (encEval (blockOfBytes b0 b1 b2 b3)).encSym i)

/-- `decode` fails with position `7*k0 + dec_bad_idx(k0)` for the lowest group `k0` in error, which is the lowest position of a code
that the validator rejects, and with no other (R80). -/
def Obligations.DecodeReportsTheLowestInvalidPosition : Prop :=
  (∀ (t : List Byte) (k0 : Nat) (g : Group), t.length % 7 = 0 → (groupsOf t)[k0]? = some g → (decEval g).decErr = 1 →
      (∀ (k : Nat) (e : Group), k < k0 → (groupsOf t)[k]? = some e → (decEval e).decErr = 0) →
        decodeStream t = .fail .decInvalidChar (some (7 * k0 + (decEval g).decBadIdx.toNat)))
    ∧ ∀ (t : List Byte) (pos : Nat), t.length % 7 = 0 →
      (decodeStream t = .fail .decInvalidChar (some pos) ↔
        (∃ c : Byte, t[pos]? = some c ∧ inv c = none)
          ∧ ∀ (j : Nat) (c : Byte), j < pos → t[j]? = some c → inv c ≠ none)

/-- `decode` of whole groups none of which is in error succeeds, overflowing groups included: the four bytes of each group's
`dec_out`, its sum modulo `2^32`, in group order (R81). -/
def Obligations.DecodeConcatenatesGroups : Prop :=
  ∀ t : List Byte, t.length % 7 = 0 → (∀ g ∈ groupsOf t, (decEval g).decErr = 0) →
    ∃ out : List Byte, decodeStream t = .ok out ∧ out.length = 4 * (t.length / 7)
      ∧ ∀ (k : Nat) (g : Group), (groupsOf t)[k]? = some g → (decEval g).decOut = BitVec.ofNat 32 (groupValue g)
          ∧ ∀ j : Fin 4, out[4 * k + j.val]? = some (blockByte (decEval g).decOut j)

/-- Blocks are independent: `encode` and `decode` of a concatenation are the concatenations.
The spec marks this as its own inference (R84, "derived: from rule R78 and rule R81"). -/
def Obligations.BlocksAreIndependent : Prop :=
  (∀ x y : List Byte, x.length % 4 = 0 → y.length % 4 = 0 →
      ∃ a b : List Byte, encodeStream x = .ok a ∧ encodeStream y = .ok b ∧ encodeStream (x ++ y) = .ok (a ++ b))
    ∧ ∀ s u a b : List Byte, s.length % 7 = 0 → u.length % 7 = 0 → decodeStream s = .ok a → decodeStream u = .ok b →
        decodeStream (s ++ u) = .ok (a ++ b)

/-- The round trips over sequences: `decode` undoes `encode`, and `encode` after `decode` gives the text in upper case where every
code is valid and no group overflows.
The spec marks this as its own inference (R85, "derived: from 41_decoder.md rule R72 and rule R73"). -/
def Obligations.StreamsRoundTrip : Prop :=
  (∀ x : List Byte, x.length % 4 = 0 → ∃ t : List Byte, encodeStream x = .ok t ∧ decodeStream t = .ok x)
    ∧ ∀ s : List Byte, s.length % 7 = 0 → (∀ c ∈ s, inv c ≠ none) → (∀ g ∈ groupsOf s, groupValue g < 2 ^ 32) →
        ∃ x : List Byte, decodeStream s = .ok x ∧ encodeStream x = .ok (upperText s)

/-- A text, its upper-case form and its lower-case form decode alike, failures and their positions included.
The spec marks this as its own inference (R86, "derived: from 41_decoder.md rule R74"). -/
def Obligations.DecodeIsCaseInsensitive : Prop :=
  ∀ s : List Byte, decodeStream (upperText s) = decodeStream s ∧ decodeStream (lowerText s) = decodeStream s

/-- Every code that `encode` returns is an upper-case alphabet code.
The spec marks this as its own inference (R87, "derived: from 40_encoder.md rule R60 and 20_memory.md rule R36"). -/
def Obligations.EncodeReturnsCanonicalText : Prop :=
  ∀ x : List Byte, x.length % 4 = 0 → ∃ out : List Byte, encodeStream x = .ok out
    ∧ ∀ c ∈ out, (∃ d : Digit, c = alpha d) ∧ caseNorm c = c

/-- The three conditions have their codes and messages, all distinct, and success has code 0 (R92). -/
def Obligations.ConditionsAreDistinguishable : Prop :=
  (HostResult.ok ([] : List Byte)).code = 0 ∧ InvalidKind.encLength.code = 1 ∧ InvalidKind.decLength.code = 2
    ∧ InvalidKind.decInvalidChar.code = 3
    ∧ InvalidKind.encLength.message = "Input to encode must have a length multiple of 4"
    ∧ InvalidKind.decLength.message = "Input to decode must have a length multiple of 7"
    ∧ InvalidKind.decInvalidChar.message = "Input to decode contains an invalid character"

/-- The array representation gives what the byte representation gives, and an array with an integer outside 0..255 has no
representation (R75). -/
def Obligations.ArraysAndBytesAgree : Prop :=
  (∀ x : List Byte, encodeArray (x.map fun b => (b.toNat : Int)) = some (encodeStream x))
    ∧ ∀ a : List Int, (∃ r, encodeArray a = some r) ↔ ∀ n ∈ a, 0 ≤ n ∧ n ≤ 255

/-- The pseudo-operations, run on the machine as the lines they expand to, return what the host functions return, from every state
(R55, R78, R80, R81). -/
def Obligations.PseudoOperationsRunAsLines : Prop :=
  ∀ s : State, (∀ x : List Byte, runHostOp (.encode x) s = .next (encodeStream x))
    ∧ ∀ t : List Byte, runHostOp (.decode t) s = .next (decodeStream t)

/-- A call evaluates one unit per block or group (R88): the trace of settled states that `runHostOp` collects, from any state, has
one entry for each block or group, and entry `k` shows the unit's function of block or group `k`. For a `DECODE` that fails on an
invalid code this rests on log 12 (notes/assumptions/12.md): its host evaluates every group before it fails. -/
def Obligations.OneEvaluationPerBlock : Prop :=
  ∀ s : State,
    (∀ x : List Byte, x.length % 4 = 0 → ∃ trace : List State, runLines (HostOp.expand (.encode x)) s = .next trace
        ∧ runHostOp (.encode x) s = .next (hostResult (.encode x) trace) ∧ trace.length = x.length / 4
        ∧ trace.map State.enc = (blocksOf x).map encEval)
    ∧ ∀ t : List Byte, t.length % 7 = 0 → ∃ trace : List State, runLines (HostOp.expand (.decode t)) s = .next trace
        ∧ runHostOp (.decode t) s = .next (hostResult (.decode t) trace) ∧ trace.length = t.length / 7
        ∧ trace.map State.dec = (groupsOf t).map decEval

/-- `enc_sym` wired straight to `dec_sym`: a line that encodes and a line that decodes what the encoder shows give the block back,
from every state, as in program P5 (R48).
For every block this is R72, which the spec marks as its own inference ("derived: from 40_encoder.md rule R57, rule R67 and rule
R69"). -/
def Obligations.WiredUnitsGiveTheBlockBack : Prop :=
  ∀ (v : Block) (s : State), ∃ t u : State, runLines [.op (.enc v), .decOfEncSym] s = .next [t, u]
    ∧ u.dec.decSym = t.enc.encSym ∧ u.dec.decOut = v ∧ u.dec.decErr = 0

/-! ### Replicated units -/

/-- Any interleaving gives each evaluation the result it would have alone: after any evaluations, an instance shows its unit's
function of the last input it was given (R39, R103). -/
def Obligations.InterleavingDoesNotMatter : Prop :=
  (∀ (b b' : Bank) (before after : List BankOp) (k : Nat) (v : Block),
      b.run (before ++ .enc k v :: after) = some b' → (∀ w : Block, BankOp.enc k w ∉ after) → b'.encs[k]? = some (encEval v))
    ∧ ∀ (b b' : Bank) (before after : List BankOp) (k : Nat) (c : Group),
      b.run (before ++ .dec k c :: after) = some b' → (∀ e : Group, BankOp.dec k e ∉ after) → b'.decs[k]? = some (decEval c)

/-- Evaluating the blocks of one sequence, or the groups of one text, on several instances gives the same result as evaluating them
on one (R103). -/
def Obligations.InstancesAgree : Prop :=
  (∀ (b : Bank) (ks : List Nat) (x : List Byte), x.length % 4 = 0 → ks.length = x.length / 4 →
      (∀ k ∈ ks, k < b.encs.length) →
      ∃ text : List Byte, b.encodeOn (ks.zip (blocksOf x)) = some text ∧ encodeStream x = .ok text)
    ∧ ∀ (b : Bank) (ks : List Nat) (t : List Byte), t.length % 7 = 0 → ks.length = t.length / 7 →
      (∀ k ∈ ks, k < b.decs.length) →
      ∃ r : List DecPorts, b.decodeOn (ks.zip (groupsOf t)) = some r ∧ decodeStream t = collectDecoded r

/-! ### The ROM's content, and settling in runs -/

/-- The content of the alphabet ROM: in digit order 0..23 its codes are those of `ZAC2B3EF4GH5TK67P8RS9WXY`, and each digit is what the
validator gives for its code and, where there is one, for the lower-case code beside it in the table of R24. The spec supplies the
codes from general knowledge (notes/assumptions/7.md). -/
def Obligations.RomHoldsTheAlphabetInOrder : Prop :=
  (List.finRange 24).map alpha
      = [0x5A, 0x41, 0x43, 0x32, 0x42, 0x33, 0x45, 0x46, 0x34, 0x47, 0x48, 0x35, 0x54, 0x4B, 0x36, 0x37, 0x50, 0x38, 0x52, 0x53, 0x39,
         0x57, 0x58, 0x59]
    ∧ (List.finRange 24).map alpha = ascii ['Z', 'A', 'C', '2', 'B', '3', 'E', 'F', '4', 'G', 'H', '5', 'T', 'K', '6', '7', 'P', '8',
        'R', 'S', '9', 'W', 'X', 'Y']
    ∧ (∀ d : Digit, inv (alpha d) = some d)
    ∧ (ascii ['z', 'a', 'c', 'b', 'e', 'f', 'g', 'h', 't', 'k', 'p', 'r', 's', 'w', 'x', 'y']).map inv
        = [some 0, some 1, some 2, some 4, some 6, some 7, some 9, some 10, some 12, some 13, some 16, some 18, some 19, some 21,
           some 22, some 23]

/-- A run of lines observes settled outputs only (R107, R109). What it answers depends on the driven inputs alone, whatever values the
outputs show at its start, power-up included; every state it collects is settled and legal; and a wired line decodes the symbols of
the block now driven on `enc_in`, settled or not when the line is reached. That both units settle in one step is log 3, and that
unsettled outputs may show any value is log 4 (notes/assumptions/3.md, notes/assumptions/4.md). -/
def Obligations.RunsObserveSettledOutputsOnly : Prop :=
  (∀ (ls : List Line) (s r : State), s.enc.encIn = r.enc.encIn → s.dec.decSym = r.dec.decSym → runLines ls s = runLines ls r)
    ∧ (∀ (ls : List Line) (s : State), ∃ trace : List State, runLines ls s = .next trace ∧ trace.length = ls.length
        ∧ ∀ t ∈ trace, t.Settled ∧ t.Legal)
    ∧ ∀ s : State, ∃ t : State, runLines [.decOfEncSym] s = .next [t] ∧ t.enc = encEval s.enc.encIn
        ∧ t.dec = decEval (encEval s.enc.encIn).encSym
end

