-- ==== Sys2Proof/Laws/Alphabet.lean ====
section
/-! SUPPORT. The ROM, its inverse and case normalisation, each by looking at every digit or every code once. -/

namespace Sys2Proof.Machine

/-- Evaluating the validator on the ROM's own codes. -/
theorem inv_alpha (d : Digit) : inv (alpha d) = some d := by revert d; decide

theorem caseNorm_alpha (d : Digit) : caseNorm (alpha d) = alpha d := by revert d; decide

/-- What the validator accepts: exactly the codes whose normal form is the digit's symbol. -/
theorem inv_eq_some (c : Byte) (d : Digit) : inv c = some d ↔ caseNorm c = alpha d := by
  constructor
  · intro h
    have := List.find?_some h
    simpa using (eq_of_beq this).symm
  · intro h
    rw [← inv_alpha d, inv, inv, h, caseNorm_alpha]

set_option maxRecDepth 100000 in
theorem caseNorm_caseNorm (c : Byte) : caseNorm (caseNorm c) = caseNorm c := by revert c; decide

set_option maxRecDepth 100000 in
theorem caseNorm_lowerCase (c : Byte) : caseNorm (lowerCase c) = caseNorm c := by revert c; decide

theorem inv_caseNorm (c : Byte) : inv (caseNorm c) = inv c := by rw [inv, inv, caseNorm_caseNorm]

theorem inv_lowerCase (c : Byte) : inv (lowerCase c) = inv c := by rw [inv, inv, caseNorm_lowerCase]

end Sys2Proof.Machine
end

