-- ==== Sys2Proof/Laws/Assembly.lean ====
section
/-! SUPPORT. What reading a word, a quoted text and hex digits answers. -/

namespace Sys2Proof.Machine

theorem dropWord_append (w t : List Byte) : dropWord w (w ++ t) = some t := by
  induction w with
  | nil => rfl
  | cons c cs ih => simp [dropWord, ih]

theorem readQuoted_append (t : List Byte) (h : ∀ c ∈ t, printable c = true) : readQuoted (t ++ [0x22]) = some t := by
  induction t with
  | nil => rfl
  | cons c cs ih =>
    simp only [List.cons_append, readQuoted]
    rw [if_neg (by simp), if_pos (h c (by simp)), ih (fun c hc => h c (by simp [hc]))]; rfl

theorem hexValue_hexDigit : ∀ n : Fin 16, hexValue (hexDigit n.val) = some n.val := by decide

theorem printHex_length (k : Nat) : ∀ n, (printHex k n).length = k := by
  induction k with
  | zero => intro n; rfl
  | succ k ih => intro n; simp [printHex, ih]

theorem readHex_append (xs ys : List Byte) :
    ∀ acc, readHex acc (xs ++ ys) = (readHex acc xs).bind fun a => readHex a ys := by
  induction xs with
  | nil => intro acc; rfl
  | cons c cs ih =>
    intro acc
    simp only [List.cons_append, readHex]
    split
    · exact ih _
    · rfl

end Sys2Proof.Machine
end

