-- ==== Sys2Proof/Laws/Bits.lean ====
section
/-! SUPPORT. Concatenations and fields as numbers: the packings of the buses in positional form (spec/00_scope.md R13), from which
field and packing facts follow by arithmetic. -/

namespace Sys2Proof

theorem append_toNat {m n : Nat} (x : BitVec m) (y : BitVec n) : (x ++ y).toNat = x.toNat * 2 ^ n + y.toNat := by
  rw [BitVec.toNat_append, ← Nat.shiftLeft_add_eq_or_of_lt y.isLt, Nat.shiftLeft_eq]

theorem field_toNat {w : Nat} (x : BitVec w) (start len : Nat) :
    (x.extractLsb' start len).toNat = x.toNat / 2 ^ start % 2 ^ len := by
  rw [BitVec.extractLsb'_toNat, Nat.shiftRight_eq_div_pow]

theorem lineWord_toNat (op : BitVec 1) (bus : Group) : (lineWord op bus).toNat = bus.toNat * 2 + op.toNat := by
  have h1 := append_toNat (m := 7) (n := 56) 0 bus
  have h2 := append_toNat (m := 7 + 56) (n := 1) ((0 : BitVec 7) ++ bus) op
  rw [h1] at h2
  refine h2.trans ?_
  rw [show BitVec.toNat (0 : BitVec 7) = 0 from rfl]
  ring

namespace Machine

theorem blockOfBytes_toNat (b0 b1 b2 b3 : Byte) :
    (blockOfBytes b0 b1 b2 b3).toNat = b0.toNat * 2 ^ 24 + b1.toNat * 2 ^ 16 + b2.toNat * 2 ^ 8 + b3.toNat := by
  have h1 := append_toNat (m := 8) (n := 8) b0 b1
  have h2 := append_toNat (m := 16) (n := 8) (b0 ++ b1) b2
  have h3 := append_toNat (m := 24) (n := 8) (b0 ++ b1 ++ b2) b3
  rw [h2, h1] at h3
  exact h3.trans (by ring)

theorem packDigits_toNat (d : Lanes (BitVec 5)) :
    (packDigits d).toNat = d.l0.toNat * 2 ^ 30 + d.l1.toNat * 2 ^ 25 + d.l2.toNat * 2 ^ 20 + d.l3.toNat * 2 ^ 15
      + d.l4.toNat * 2 ^ 10 + d.l5.toNat * 2 ^ 5 + d.l6.toNat := by
  have h1 := append_toNat (m := 5) (n := 5) (d.l0) d.l1
  have h2 := append_toNat (m := 10) (n := 5) (d.l0 ++ d.l1) d.l2
  have h3 := append_toNat (m := 15) (n := 5) (d.l0 ++ d.l1 ++ d.l2) d.l3
  have h4 := append_toNat (m := 20) (n := 5) (d.l0 ++ d.l1 ++ d.l2 ++ d.l3) d.l4
  have h5 := append_toNat (m := 25) (n := 5) (d.l0 ++ d.l1 ++ d.l2 ++ d.l3 ++ d.l4) d.l5
  have h6 := append_toNat (m := 30) (n := 5) (d.l0 ++ d.l1 ++ d.l2 ++ d.l3 ++ d.l4 ++ d.l5) d.l6
  rw [h5, h4, h3, h2, h1] at h6
  exact h6.trans (by ring)

theorem packSymbols_toNat (s : Lanes Byte) :
    (packSymbols s).toNat = s.l0.toNat * 2 ^ 48 + s.l1.toNat * 2 ^ 40 + s.l2.toNat * 2 ^ 32 + s.l3.toNat * 2 ^ 24
      + s.l4.toNat * 2 ^ 16 + s.l5.toNat * 2 ^ 8 + s.l6.toNat := by
  have h1 := append_toNat (m := 8) (n := 8) (s.l0) s.l1
  have h2 := append_toNat (m := 16) (n := 8) (s.l0 ++ s.l1) s.l2
  have h3 := append_toNat (m := 24) (n := 8) (s.l0 ++ s.l1 ++ s.l2) s.l3
  have h4 := append_toNat (m := 32) (n := 8) (s.l0 ++ s.l1 ++ s.l2 ++ s.l3) s.l4
  have h5 := append_toNat (m := 40) (n := 8) (s.l0 ++ s.l1 ++ s.l2 ++ s.l3 ++ s.l4) s.l5
  have h6 := append_toNat (m := 48) (n := 8) (s.l0 ++ s.l1 ++ s.l2 ++ s.l3 ++ s.l4 ++ s.l5) s.l6
  rw [h5, h4, h3, h2, h1] at h6
  exact h6.trans (by ring)

end Machine

end Sys2Proof
end

