-- ==== Sys2Proof/Laws/State.lean ====
section
/-! SUPPORT. What each operation over the ports does to each field: one lemma per field per update, and one lemma that says all
that `exec` and `step` can do, so that no proof unfolds a record update. -/

namespace Sys2Proof.Machine

@[simp] theorem State.select_op (s : State) (b : BitVec 1) : (s.select b).op = b := rfl
@[simp] theorem State.select_enc (s : State) (b : BitVec 1) : (s.select b).enc = s.enc := rfl
@[simp] theorem State.select_dec (s : State) (b : BitVec 1) : (s.select b).dec = s.dec := rfl

@[simp] theorem State.driveEnc_op (s : State) (v : Block) : (s.driveEnc v).op = s.op := rfl
@[simp] theorem State.driveEnc_encIn (s : State) (v : Block) : (s.driveEnc v).enc.encIn = v := rfl
@[simp] theorem State.driveEnc_encDig (s : State) (v : Block) : (s.driveEnc v).enc.encDig = s.enc.encDig := rfl
@[simp] theorem State.driveEnc_encSym (s : State) (v : Block) : (s.driveEnc v).enc.encSym = s.enc.encSym := rfl
@[simp] theorem State.driveEnc_dec (s : State) (v : Block) : (s.driveEnc v).dec = s.dec := rfl

@[simp] theorem State.driveDec_op (s : State) (c : Group) : (s.driveDec c).op = s.op := rfl
@[simp] theorem State.driveDec_enc (s : State) (c : Group) : (s.driveDec c).enc = s.enc := rfl
@[simp] theorem State.driveDec_decSym (s : State) (c : Group) : (s.driveDec c).dec.decSym = c := rfl
@[simp] theorem State.driveDec_decOut (s : State) (c : Group) : (s.driveDec c).dec.decOut = s.dec.decOut := rfl
@[simp] theorem State.driveDec_decErr (s : State) (c : Group) : (s.driveDec c).dec.decErr = s.dec.decErr := rfl
@[simp] theorem State.driveDec_decBadIdx (s : State) (c : Group) : (s.driveDec c).dec.decBadIdx = s.dec.decBadIdx := rfl
@[simp] theorem State.driveDec_decOvf (s : State) (c : Group) : (s.driveDec c).dec.decOvf = s.dec.decOvf := rfl

@[simp] theorem State.settle_op (s : State) : s.settle.op = s.op := rfl
@[simp] theorem State.settle_enc (s : State) : s.settle.enc = encEval s.enc.encIn := rfl
@[simp] theorem State.settle_dec (s : State) : s.settle.dec = decEval s.dec.decSym := rfl

@[simp] theorem State.unsettled_op (s : State) (n : Nat) : (s.unsettled n).op = s.op := rfl
@[simp] theorem State.unsettled_encIn (s : State) (n : Nat) : (s.unsettled n).enc.encIn = s.enc.encIn := rfl
@[simp] theorem State.unsettled_decSym (s : State) (n : Nat) : (s.unsettled n).dec.decSym = s.dec.decSym := rfl

@[simp] theorem State.settle_unsettled (s : State) (n : Nat) : (s.unsettled n).settle = s.settle := rfl

/-- What is sampled from the encoder is its function of the block now driven, whatever its output field shows. -/
@[simp] theorem State.sampledEncSym_eq (s : State) : s.sampledEncSym = (encEval s.enc.encIn).encSym := rfl

@[simp] theorem encEval_encIn (v : Block) : (encEval v).encIn = v := rfl
@[simp] theorem decEval_decSym (c : Group) : (decEval c).decSym = c := rfl

/-- Settled ports stay as they are. -/
@[simp] theorem State.settle_settle (s : State) : s.settle.settle = s.settle := by
  simp only [State.settle, encEval_encIn, decEval_decSym]

/-- All that presenting an operation does. -/
theorem State.present_eq (s : State) (i : Instr) :
    s.present i = match i with
      | .enc v => ⟨0, ⟨v, s.enc.encDig, s.enc.encSym⟩, s.dec⟩
      | .dec c => ⟨1, s.enc, ⟨c, s.dec.decOut, s.dec.decErr, s.dec.decBadIdx, s.dec.decOvf⟩⟩ := by
  cases i <;> rfl

/-- All that settling does: it forgets the outputs. -/
theorem State.settle_eq (s : State) : s.settle = ⟨s.op, encEval s.enc.encIn, decEval s.dec.decSym⟩ := rfl

/-- All that `exec` does with `ENC`. -/
theorem exec_enc (v : Block) (s : State) : exec (.enc v) s = .next ⟨0, encEval v, decEval s.dec.decSym⟩ := rfl

/-- All that `exec` does with `DEC`. -/
theorem exec_dec (c : Group) (s : State) : exec (.dec c) s = .next ⟨1, encEval s.enc.encIn, decEval c⟩ := rfl

/-- Executing an operation is presenting it and letting the units settle. -/
theorem exec_eq_settle_present (i : Instr) (s : State) : exec i s = .next (s.present i).settle := by
  cases i <;> rfl

end Sys2Proof.Machine
end

