-- ==== Sys2Proof/Laws/Decode.lean ====
section
/-! SUPPORT. The fields of a line word, and what is fetched from the ports. -/

namespace Sys2Proof

theorem lineWord_selector (op : BitVec 1) (bus : Group) : (lineWord op bus).extractLsb' 0 1 = op := by
  apply BitVec.eq_of_toNat_eq; rw [field_toNat, lineWord_toNat]; omega

theorem lineWord_bus (op : BitVec 1) (bus : Group) : (lineWord op bus).extractLsb' 1 56 = bus := by
  apply BitVec.eq_of_toNat_eq; rw [field_toNat, lineWord_toNat]; omega

theorem lineWord_above_bus (op : BitVec 1) (bus : Group) : (lineWord op bus).extractLsb' 57 7 = 0 := by
  apply BitVec.eq_of_toNat_eq; rw [field_toNat, lineWord_toNat]; change _ = 0; omega

theorem widen_toNat (v : Block) : (v.setWidth 56).toNat = v.toNat := by
  rw [BitVec.toNat_setWidth]; omega

theorem lineWord_narrow_bus (op : BitVec 1) (v : Block) : (lineWord op (v.setWidth 56)).extractLsb' 1 32 = v := by
  apply BitVec.eq_of_toNat_eq; rw [field_toNat, lineWord_toNat, widen_toNat]; omega

theorem lineWord_above_narrow_bus (op : BitVec 1) (v : Block) :
    (lineWord op (v.setWidth 56)).extractLsb' 33 31 = 0 := by
  apply BitVec.eq_of_toNat_eq; rw [field_toNat, lineWord_toNat, widen_toNat]; change _ = 0; omega

/-- A one-bit value is 0 or 1. -/
theorem bit_cases (b : BitVec 1) : b = 0 ∨ b = 1 := by revert b; decide

/-- The word of a selector 0 and a block decodes to `ENC` of the block. -/
theorem decode_lineWord_enc (v : Block) : decode (lineWord 0 (v.setWidth 56)) = .ok (.enc v) := by
  unfold decode
  rw [wordSelector, wordEncBus, lineWord_selector, lineWord_above_narrow_bus, lineWord_narrow_bus]; rfl

/-- The word of a selector 1 and a group decodes to `DEC` of the group. -/
theorem decode_lineWord_dec (c : Group) : decode (lineWord 1 c) = .ok (.dec c) := by
  unfold decode
  rw [wordSelector, wordDecBus, lineWord_selector, lineWord_above_bus, lineWord_bus]; rfl

end Sys2Proof

namespace Sys2Proof.Machine

/-- What stands on the ports always decodes: to `ENC` of `enc_in` or to `DEC` of `dec_sym`, as the selector says. -/
theorem decode_fetchWord (s : State) :
    decode (fetchWord s) = .ok (if s.op = 0 then .enc s.enc.encIn else .dec s.dec.decSym) := by
  rcases bit_cases s.op with h | h
  · simp only [fetchWord, h, ↓reduceIte]; exact decode_lineWord_enc _
  · simp only [fetchWord, h, show ¬ ((1 : BitVec 1) = 0) by decide, ↓reduceIte]; exact decode_lineWord_dec _

/-- All that a step does, from any state: the units settle on the inputs they have. -/
theorem step_eq_settle (s : State) : step s = .next s.settle := by
  unfold step
  rw [decode_fetchWord]
  rcases bit_cases s.op with h | h
  · simp only [h, ↓reduceIte]; rw [exec_enc, State.settle_eq, h]
  · simp only [h, show ¬ ((1 : BitVec 1) = 0) by decide, ↓reduceIte]; rw [exec_dec, State.settle_eq, h]

end Sys2Proof.Machine
end

