-- ==== Sys2Proof/Laws/Lanes.lean ====
section
/-! SUPPORT. Fields of packed buses: a field of a packed bus is the lane, and packing the fields gives the bus back. -/

namespace Sys2Proof.Machine

@[simp] theorem lane_lanesMap {α β : Type} (f : α → β) (l : Lanes α) (i : Fin 7) : lane (lanesMap f l) i = f (lane l i) := by
  match i with
  | 0 | 1 | 2 | 3 | 4 | 5 | 6 => rfl

@[simp] theorem lane_lanesOf {α : Type} (f : Fin 7 → α) (i : Fin 7) : lane (lanesOf f) i = f i := by
  match i with
  | 0 | 1 | 2 | 3 | 4 | 5 | 6 => rfl

/-- Lanes that agree everywhere are equal. -/
theorem lanes_ext {α : Type} (l m : Lanes α) (h : ∀ i, lane l i = lane m i) : l = m := by
  cases l; cases m
  simpa [lane] using And.intro (h 0) ⟨h 1, h 2, h 3, h 4, h 5, h 6⟩

@[simp] theorem lanesMap_lanesMap {α β γ : Type} (f : α → β) (g : β → γ) (l : Lanes α) :
    lanesMap g (lanesMap f l) = lanesMap (fun x => g (f x)) l := rfl

theorem symbolField_packSymbols (l : Lanes Byte) (i : Fin 7) : symbolField (packSymbols l) i = lane l i := by
  apply BitVec.eq_of_toNat_eq
  rw [symbolField, field_toNat, packSymbols_toNat]
  match i with
  | 0 | 1 | 2 | 3 | 4 | 5 | 6 => norm_num [lane]; omega

theorem digitField_packDigits (l : Lanes (BitVec 5)) (i : Fin 7) : digitField (packDigits l) i = lane l i := by
  apply BitVec.eq_of_toNat_eq
  rw [digitField, field_toNat, packDigits_toNat]
  match i with
  | 0 | 1 | 2 | 3 | 4 | 5 | 6 => norm_num [lane]; omega

@[simp] theorem symbolLanes_packSymbols (l : Lanes Byte) : symbolLanes (packSymbols l) = l :=
  lanes_ext _ _ fun i => by rw [symbolLanes, lane_lanesOf, symbolField_packSymbols]

@[simp] theorem packSymbols_symbolLanes (g : Group) : packSymbols (symbolLanes g) = g := by
  apply BitVec.eq_of_toNat_eq
  rw [packSymbols_toNat]
  simp only [symbolLanes, lanesOf, symbolField, field_toNat]
  have := g.isLt
  norm_num
  omega

@[simp] theorem groupText_packSymbols (l : Lanes Byte) : groupText (packSymbols l) = lanesList l := by
  rw [groupText, symbolLanes_packSymbols]

theorem groupText_length (g : Group) : (groupText g).length = 7 := rfl

theorem symbolField_groupUpper (g : Group) (i : Fin 7) : symbolField (groupUpper g) i = caseNorm (symbolField g i) := by
  rw [groupUpper, symbolField_packSymbols, lane_lanesMap, symbolLanes, lane_lanesOf]

theorem symbolField_groupLower (g : Group) (i : Fin 7) : symbolField (groupLower g) i = lowerCase (symbolField g i) := by
  rw [groupLower, symbolField_packSymbols, lane_lanesMap, symbolLanes, lane_lanesOf]

theorem digitBits_toNat (d : Digit) : (digitBits d).toNat = d.val := by revert d; decide

theorem blockByte_blockOfBytes (b0 b1 b2 b3 : Byte) (k : Fin 4) :
    blockByte (blockOfBytes b0 b1 b2 b3) k = match k with | 0 => b0 | 1 => b1 | 2 => b2 | 3 => b3 := by
  apply BitVec.eq_of_toNat_eq
  rw [blockByte, field_toNat, blockOfBytes_toNat]
  match k with
  | 0 | 1 | 2 | 3 => norm_num; omega

@[simp] theorem blockBytes_blockOfBytes (b0 b1 b2 b3 : Byte) : blockBytes (blockOfBytes b0 b1 b2 b3) = [b0, b1, b2, b3] := by
  simp [blockBytes, blockByte_blockOfBytes]

theorem blockOfBytes_blockByte (v : Block) :
    blockOfBytes (blockByte v 0) (blockByte v 1) (blockByte v 2) (blockByte v 3) = v := by
  apply BitVec.eq_of_toNat_eq
  rw [blockOfBytes_toNat]
  simp only [blockByte, field_toNat]
  have := v.isLt
  norm_num
  omega

end Sys2Proof.Machine
end

