-- ==== Sys2Proof/Laws/PerInstr.lean ====
section
/-! SUPPORT. Facts about every operation as syntax, one lemma per constructor (LAWS.json names the families). -/

namespace Sys2Proof.Laws

/-- Bit 0 of an operation's word is its selector (R50; spec/opcode_table.json). -/
def SelectorBit.Statement (i : Instr) : Prop := (encode i).extractLsb' 0 1 = i.selector

theorem SelectorBit.enc (v : Block) : SelectorBit.Statement (.enc v) := lineWord_selector 0 _

theorem SelectorBit.dec (c : Group) : SelectorBit.Statement (.dec c) := lineWord_selector 1 c

/-- An operation's word is well formed: nothing stands above its format's bus (R45). -/
def WordWellFormed.Statement (i : Instr) : Prop := LineWord.wf (encode i) = true

theorem WordWellFormed.enc (v : Block) : WordWellFormed.Statement (.enc v) := by
  unfold WordWellFormed.Statement encode LineWord.wf
  rw [lineWord_selector, lineWord_above_narrow_bus]; rfl

theorem WordWellFormed.dec (c : Group) : WordWellFormed.Statement (.dec c) := by
  unfold WordWellFormed.Statement encode LineWord.wf
  rw [lineWord_selector, lineWord_above_bus]; rfl

end Sys2Proof.Laws
end

