-- ==== Sys2Proof/Laws/Units.lean ====
section
/-! SUPPORT. What the decomposer, the flag functions and the two units answer, said once each. -/

namespace Sys2Proof.Machine

/-- The value left after `k` rounds. -/
theorem remaining_eq (v : Block) (k : Nat) : remaining v k = v.toNat / 24 ^ k := by
  induction k with
  | zero => simp [remaining]
  | succ k ih => rw [remaining, ih, Nat.div_div_eq_div_mul, pow_succ]

/-- A digit of the decomposer, as the number left over when its round comes. -/
theorem lane_decompose (v : Block) (i : Fin 7) : (lane (decompose v) i).val = remaining v (6 - i.val) % 24 := by
  rw [decompose, lane_lanesOf, digitOf]

/-- The digit fields of the encoder. -/
theorem digitField_encEval (v : Block) (i : Fin 7) :
    digitField (encEval v).encDig i = digitBits (lane (decompose v) i) := by
  rw [encEval, digitField_packDigits, lane_lanesMap]

/-- The symbol fields of the encoder. -/
theorem symbolField_encEval (v : Block) (i : Fin 7) :
    symbolField (encEval v).encSym i = alpha (lane (decompose v) i) := by
  rw [encEval, symbolField_packSymbols, lane_lanesMap]

/-- A validator lane reads its own code and no other (R65). -/
theorem lane_validate (c : Group) (i : Fin 7) : lane (validate c) i = inv (symbolField c i) := by
  rw [validate, lane_lanesMap, symbolLanes, lane_lanesOf]

/-- `all_valid` is the conjunction over the lanes. -/
theorem allValid_iff (v : Lanes (Option Digit)) : allValid v = true ↔ ∀ i, (lane v i).isSome = true := by
  constructor
  · intro h i
    simp only [allValid, laneValid, Bool.and_eq_true] at h
    obtain ⟨⟨⟨⟨⟨⟨h0, h1⟩, h2⟩, h3⟩, h4⟩, h5⟩, h6⟩ := h
    match i with
    | 0 => exact h0
    | 1 => exact h1
    | 2 => exact h2
    | 3 => exact h3
    | 4 => exact h4
    | 5 => exact h5
    | 6 => exact h6
  · intro h
    simp only [allValid, laneValid, Bool.and_eq_true]
    exact ⟨⟨⟨⟨⟨⟨h 0, h 1⟩, h 2⟩, h 3⟩, h 4⟩, h 5⟩, h 6⟩

/-- Lanes that are all valid are the lanes of seven digits. -/
theorem exists_digits_of_allValid (v : Lanes (Option Digit)) (h : allValid v = true) :
    ∃ g : Lanes Digit, v = lanesMap some g := by
  refine ⟨lanesMap laneDigit v, lanes_ext _ _ fun i => ?_⟩
  have hi := (allValid_iff v).mp h i
  obtain ⟨d, hd⟩ := Option.isSome_iff_exists.mp hi
  simp [hd, laneDigit]

theorem allValid_some (g : Lanes Digit) : allValid (lanesMap some g) = true := rfl

theorem laneSum_some (g : Lanes Digit) : laneSum (lanesMap some g) = weightedSum g := rfl

/-- The decoder on seven valid codes. -/
theorem decEval_valid (c : Group) (g : Lanes Digit) (h : validate c = lanesMap some g) :
    decEval c = ⟨c, BitVec.ofNat 32 (weightedSum g), 0, 0, if overflows (weightedSum g) then 1 else 0⟩ := by
  simp only [decEval, dataOut, errFlag, badIdxFlag, ovfFlag, h, allValid_some, laneSum_some, ↓reduceIte]

/-- The decoder on a group with an invalid code. -/
theorem decEval_invalid (c : Group) (h : allValid (validate c) = false) :
    decEval c = ⟨c, 0, 1, lowestInvalid (validate c), 0⟩ := by
  simp only [decEval, dataOut, errFlag, badIdxFlag, ovfFlag, h, Bool.false_eq_true, ↓reduceIte]

/-- What the lowest invalid lane is, where there is one. -/
theorem lowestInvalid_spec (v : Lanes (Option Digit)) (h : allValid v = false) :
    ∃ i : Fin 7, (lowestInvalid v).toNat = i.val ∧ lane v i = none ∧ ∀ j : Fin 7, j < i → (lane v j).isSome = true := by
  rcases v with ⟨v0, v1, v2, v3, v4, v5, v6⟩
  rcases v0 with _ | g0
  · exact ⟨0, rfl, rfl, fun j hj => by fin_cases j <;> first | rfl | exact absurd hj (by decide)⟩
  rcases v1 with _ | g1
  · exact ⟨1, rfl, rfl, fun j hj => by fin_cases j <;> first | rfl | exact absurd hj (by decide)⟩
  rcases v2 with _ | g2
  · exact ⟨2, rfl, rfl, fun j hj => by fin_cases j <;> first | rfl | exact absurd hj (by decide)⟩
  rcases v3 with _ | g3
  · exact ⟨3, rfl, rfl, fun j hj => by fin_cases j <;> first | rfl | exact absurd hj (by decide)⟩
  rcases v4 with _ | g4
  · exact ⟨4, rfl, rfl, fun j hj => by fin_cases j <;> first | rfl | exact absurd hj (by decide)⟩
  rcases v5 with _ | g5
  · exact ⟨5, rfl, rfl, fun j hj => by fin_cases j <;> first | rfl | exact absurd hj (by decide)⟩
  rcases v6 with _ | g6
  · exact ⟨6, rfl, rfl, fun j hj => by fin_cases j <;> first | rfl | exact absurd hj (by decide)⟩
  exact absurd (show true = false from h) (by decide)

end Sys2Proof.Machine
end

