-- ==== Sys2Proof/Laws/Stream.lean ====
section
/-! SUPPORT. Induction over whole blocks and whole groups, and what splitting, collecting, running lines and evaluating on a bank do,
said once each. -/

namespace Sys2Proof.Machine

/-- Induction over the blocks of a sequence of whole blocks. -/
theorem whole_blocks_induction {P : List Byte → Prop} (nil : P [])
    (block : ∀ b0 b1 b2 b3 rest, rest.length % 4 = 0 → P rest → P (b0 :: b1 :: b2 :: b3 :: rest)) :
    ∀ x : List Byte, x.length % 4 = 0 → P x := by
  intro x h
  induction x using blocksOf.induct with
  | case1 b0 b1 b2 b3 rest ih =>
    have hr : rest.length % 4 = 0 := by simp at h; omega
    exact block _ _ _ _ _ hr (ih hr)
  | case2 x hx =>
    rcases x with _ | ⟨a, _ | ⟨b, _ | ⟨c, _ | ⟨d, r⟩⟩⟩⟩
    · exact nil
    all_goals first | (simp at h; done) | exact absurd rfl (hx _ _ _ _ _)

/-- Induction over the groups of a text of whole groups. -/
theorem whole_groups_induction {P : List Byte → Prop} (nil : P [])
    (group : ∀ c0 c1 c2 c3 c4 c5 c6 rest, rest.length % 7 = 0 → P rest →
      P (c0 :: c1 :: c2 :: c3 :: c4 :: c5 :: c6 :: rest)) :
    ∀ t : List Byte, t.length % 7 = 0 → P t := by
  intro t h
  induction t using groupsOf.induct with
  | case1 c0 c1 c2 c3 c4 c5 c6 rest ih =>
    have hr : rest.length % 7 = 0 := by simp at h; omega
    exact group _ _ _ _ _ _ _ _ hr (ih hr)
  | case2 t ht =>
    rcases t with _ | ⟨a, _ | ⟨b, _ | ⟨c, _ | ⟨d, _ | ⟨e, _ | ⟨f, _ | ⟨g, r⟩⟩⟩⟩⟩⟩⟩
    · exact nil
    all_goals first | (simp at h; done) | exact absurd rfl (ht _ _ _ _ _ _ _ _)

/-- The codes of a group as a text, by position. -/
theorem groupText_getElem? (g : Group) (i : Fin 7) : (groupText g)[i.val]? = some (symbolField g i) := by
  fin_cases i <;> rfl

/-- Putting one group's text in front of a text puts the group in front of its groups. -/
theorem groupsOf_groupText_append (g : Group) (rest : List Byte) : groupsOf (groupText g ++ rest) = g :: groupsOf rest := by
  change packSymbols (symbolLanes g) :: groupsOf rest = _
  rw [packSymbols_symbolLanes]

/-- Counting groups from `k + m` instead of `k` moves the position by `7 * m`. -/
theorem firstBadFrom_add (r : List DecPorts) : ∀ k m, firstBadFrom (k + m) r = (firstBadFrom k r).map (· + 7 * m) := by
  induction r with
  | nil => intros; rfl
  | cons p r ih =>
    intro k m
    simp only [firstBadFrom]
    split
    · simp; omega
    · rw [show k + m + 1 = (k + 1) + m by omega, ih]

@[simp] theorem lineInstr_op (s : State) (i : Instr) : lineInstr s (.op i) = i := rfl

@[simp] theorem lineInstr_decOfEncSym (s : State) : lineInstr s .decOfEncSym = .dec (encEval s.enc.encIn).encSym := rfl

/-- Running a first line: it settles the ports with the line's operation presented, and the rest runs from there. -/
theorem runLines_cons (l : Line) (rest : List Line) (s : State) :
    runLines (l :: rest) s =
      match runLines rest (s.present (lineInstr s l)).settle with
      | .next trace => .next ((s.present (lineInstr s l)).settle :: trace)
      | .fault r => .fault r
      | .refused r => .refused r := by
  cases h : runLines rest (s.present (lineInstr s l)).settle <;> simp only [runLines, step_eq_settle, h]

/-- All that one evaluation on a bank does. -/
theorem Bank.eval_eq_some (b b' : Bank) (o : BankOp) (h : b.eval o = some b') :
    (∃ k v, o = .enc k v ∧ k < b.encs.length ∧ b' = ⟨b.encs.set k (encEval v), b.decs⟩)
      ∨ ∃ k c, o = .dec k c ∧ k < b.decs.length ∧ b' = ⟨b.encs, b.decs.set k (decEval c)⟩ := by
  cases o with
  | enc k v =>
    rw [Bank.eval] at h
    split at h
    · exact .inl ⟨k, v, rfl, ‹_›, (Option.some.inj h).symm⟩
    · cases h
  | dec k c =>
    rw [Bank.eval] at h
    split at h
    · exact .inr ⟨k, c, rfl, ‹_›, (Option.some.inj h).symm⟩
    · cases h

end Sys2Proof.Machine
end

