-- ==== Sys2Proof/Tests/Slice0.lean ====
section
/-! SUPPORT. Tests: expected values come from spec/95_test_vectors.md (the vector's id stands beside each test) or are written
out from the spec's encodings. After them, for each statement with hypotheses, a concrete case that meets them all. -/

namespace Sys2Proof.Machine

/-- The next state, where there is one. -/
def stateAfter (o : Host.Outcome State Fault Refusal) : Option State :=
  match o with
  | .next s => some s
  | _ => none

/-! ### Well-formedness refuses -/

theorem test_wf_refuses_bit_above_enc_in : LineWord.wf 0x200000000 = false := by decide
theorem test_wf_refuses_bit_above_dec_sym : LineWord.wf 0x200000000000001 = false := by decide
theorem test_wf_refuses_three_bytes : (HostOp.encode [0, 0, 0]).wf = false := by decide
theorem test_wf_refuses_eight_codes : (HostOp.decode [0x5A, 0x5A, 0x5A, 0x5A, 0x5A, 0x5A, 0x5A, 0x5A]).wf = false := by decide
theorem test_wf_accepts_every_operation : (Instr.enc 0xFFFFFFFF).wf = true ∧ (Instr.dec 0).wf = true := by decide

/-! ### Decoding: words written out bit by bit from the pairs (op, bus value) -/

/-- P1, `ENC 0xDEADBEEF`: op 0 at bit 0, the 32 bits of `enc_in` above it, zeros above them. -/
theorem test_decode_enc :
    decode 0b0000000000000000000000000000000_11011110101011011011111011101111_0 = .ok (.enc 0xDEADBEEF) := by decide

/-- P5, `DEC "5YEATXA"`: op 1 at bit 0, the seven codes above it, the first code most significant, zeros above them. -/
theorem test_decode_dec :
    decode 0b0000000_00110101_01011001_01000101_01000001_01010100_01011000_01000001_1 = .ok (.dec 0x35594541545841) := by decide

theorem test_decode_refuses_wide_enc : decode 0x200000000 = .error .encBusTooWide := by decide
theorem test_decode_refuses_wide_dec : decode 0x200000000000001 = .error .decBusTooWide := by decide
theorem test_table_rows : decodeTableWord 8 0 = some (.enc 0) ∧ decodeTableWord 8 1 = some (.dec 0) := by decide
theorem test_table_word_masks_upper_bits : decodeTableWord 8 0x1FF = some (.dec 0x7F) := by decide

/-- R7: seven base-24 digits hold every block; R8: a digit fits its field. -/
theorem test_parameters : Config.radix ^ Config.digits = 4586471424 ∧ 2 ^ Config.wordBits < Config.radix ^ Config.digits
    ∧ Config.radix ≤ 2 ^ Config.digitBits ∧ Config.wordBits = Config.blockBytes * Config.symbolBits := by decide

/-! ### The operations -/

/-- SV3. -/
theorem test_enc_largest :
    (stateAfter (exec (.enc 0xFFFFFFFF) State.reset)).map (fun s => (s.enc.encDig, s.enc.encSym))
      = some (0x59694914F, 0x58354747424837) := by decide

/-- DV-E16. -/
theorem test_enc_mixed :
    (stateAfter (exec (.enc 0xDEADBEEF) State.reset)).map (fun s => (s.enc.encDig, s.enc.encSym))
      = some (0x4DA44AC37, 0x534B4247354159) := by decide

/-- DV-D11: the largest sum wraps, with no error. -/
theorem test_dec_overflow :
    (stateAfter (exec (.dec 0x59595959595959) State.reset)).map (fun s => (s.dec.decOut, s.dec.decOvf, s.dec.decErr))
      = some (0x115FFFFF, 1, 0) := by decide

/-- DV-D16: two invalid codes, at 1 and 3. -/
theorem test_dec_two_invalid :
    (stateAfter (exec (.dec 0x5A305A315A5A5A) State.reset)).map (fun s => (s.dec.decErr, s.dec.decBadIdx, s.dec.decOut))
      = some (1, 1, 0) := by decide

/-- SV4, as the very next step after reset once presented by its word. -/
theorem test_step_lower_case :
    (stateAfter (step (State.reset.withFetchWord 64 0xF06ACECEC4D06F))).map (fun s => (s.dec.decOut, s.dec.decOvf))
      = some (0xFFFFFFFF, 0) := by decide

/-- SV2 driven but not yet settled, then a wired line (R109): the decoder gets `ZZZZZZA`, not the old `ZZZZZZZ`. -/
theorem test_wired_line_takes_settled_symbols :
    (match runLines [.decOfEncSym] (State.reset.withFetchWord 64 2) with
      | .next trace => trace.map fun t => (t.enc.encSym, t.dec.decSym, t.dec.decOut)
      | _ => []) = [(0x5A5A5A5A5A5A41, 0x5A5A5A5A5A5A41, 1)] := by decide

/-- The table's `DEC` word runs as the first instruction: seven NUL codes are invalid from lane 0 on (R70). -/
theorem test_step_table_word :
    (stateAfter (step (State.reset.withFetchWord 8 1))).map (fun s => (s.op, s.dec.decErr, s.dec.decBadIdx)) = some (1, 1, 0) := by
  decide

/-- DV-L1 to DV-L25, the codes and their digits. -/
theorem test_validator_lane :
    [0x5A, 0x7A, 0x41, 0x61, 0x59, 0x79, 0x32, 0x39].map inv = [some 0, some 0, some 1, some 1, some 23, some 23, some 3, some 20]
      ∧ [0x30, 0x31, 0x49, 0x69, 0x4F, 0x4C, 0x44, 0x55, 0x00, 0x20, 0x7F, 0x80, 0xDA, 0xFA, 0xFF, 0x5B, 0x7B].all
          (fun c => inv c == none) = true := by decide

/-- R49: `dec_err` is bit 1 of the status. -/
theorem test_status_view : ((statusView State.reset.dec).extractLsb' 1 1) = State.reset.dec.decErr := by decide

/-! ### The host layer and written lines -/

/-- DV-H5. -/
theorem test_encode_two_blocks :
    encodeStream [0xDE, 0xAD, 0xBE, 0xEF, 0x12, 0x34, 0x56, 0x78]
      = .ok (ascii ['S', 'K', 'B', 'G', '5', 'A', 'Y', 'A', '6', '4', 'K', 'H', 'W', 'Z']) := by decide

/-- DV-H10: the lowest invalid position is 11. -/
theorem test_decode_invalid_position :
    decodeStream (ascii ['Z', 'Z', 'Z', 'Z', 'Z', 'Z', 'A', 'Z', 'Z', 'Z', 'Z', '0', 'Z', 'Z'])
      = .fail .decInvalidChar (some 11) := by decide

/-- DV-H13: an overflowing group wraps and decoding succeeds. -/
theorem test_decode_overflow :
    decodeStream (ascii ['Y', 'Y', 'Y', 'Y', 'Y', 'Y', 'Y', 'Z', 'Z', 'Z', 'Z', 'Z', 'Z', 'A'])
      = .ok [0x11, 0x5F, 0xFF, 0xFF, 0x00, 0x00, 0x00, 0x01] := by decide

theorem test_read_enc_line : readLine (ascii ['E', 'N', 'C', ' ', '0', 'x', 'D', 'E', 'A', 'D', 'B', 'E', 'E', 'F'])
    = some (.enc 0xDEADBEEF) := by decide

theorem test_read_dec_line : readLine (ascii ['D', 'E', 'C', ' ', '"', '5', 'Y', 'E', 'A', 'T', 'X', 'A', '"'])
    = some (.dec 0x35594541545841) := by decide

theorem test_read_encode_line : readHostOp (wordEncode ++ ascii ['0', 'x', 'D', 'E', ',', ' ', '0', 'x', 'A', 'D', ']'])
    = some (.encode [0xDE, 0xAD]) := by decide

theorem test_read_decode_line : readHostOp (wordDecode ++ ascii ['A', '"']) = some (.decode [0x41]) := by decide

/-! ### Cases that meet the statements' hypotheses -/

theorem witness_decode_and_encode_agree :
    (Instr.enc 1).wf = true ∧ decode 2 = .ok (.enc 1) ∧ (Instr.dec 1).wf = true ∧ decode 3 = .ok (.dec 1) := by decide

theorem witness_words_above_the_bus :
    ((0x200000000 : LineWord).toNat % 2 = 0 ∧ 2 ^ 33 ≤ (0x200000000 : LineWord).toNat)
      ∧ (0x200000000000001 : LineWord).toNat % 2 = 1 ∧ 2 ^ 57 ≤ (0x200000000000001 : LineWord).toNat := by decide

theorem witness_opcode_rows : decode 2 = .ok (.enc 1) ∧ (OpcodeRow.mk "ENC" 1 0).covers 2 = true
    ∧ decode 3 = .ok (.dec 1) ∧ (OpcodeRow.mk "DEC" 1 1).covers 3 = true := by decide

theorem witness_written_lines : ∀ i : Fin 7, printable (symbolField 0x35594541545841 i) = true := by decide

theorem witness_step_runs : decode (fetchWord State.reset) = .ok (.enc 0) ∧ (Instr.enc 0).wf = true
    ∧ decode (fetchWord (State.reset.present (.dec 1))) = .ok (.dec 1) := by decide

theorem witness_frames : State.reset.dec = decEval State.reset.dec.decSym ∧ State.reset.enc = encEval State.reset.enc.encIn := by
  decide

theorem witness_digits_represent : (24 : Block).toNat = valueOf (lane (decompose 24)) := by decide

theorem witness_digit_ranges : 1 ≤ (1 : Fin 7).val ∧ 1 ≤ (6 : Fin 7).val ∧ 0 ≤ 23 ∧ 23 ≤ 23 ∧ 22 ≤ 22 := by decide

theorem witness_alphabet : alpha 0 = alpha 0 ∧ (0x30 : Byte) ∈ ascii ['0'] := by decide

theorem witness_validator : caseNorm 0x79 = alpha 23 ∧ ∀ d : Digit, caseNorm 0x30 ≠ alpha d := by decide

theorem witness_valid_codes : ∀ i : Fin 7, caseNorm (symbolField 0x59595959595959 i) = alpha 23 := by decide

theorem witness_lowest_invalid_first : (∀ d : Digit, caseNorm (symbolField 0x495A5A5A5A5A30 0) ≠ alpha d)
    ∧ ∀ j : Fin 7, j < 0 → ∃ d : Digit, caseNorm (symbolField 0x495A5A5A5A5A30 j) = alpha d := by decide

theorem witness_lowest_invalid_last : (∀ d : Digit, caseNorm (symbolField 0x5A5A5A5A5A5A49 6) ≠ alpha d)
    ∧ ∀ j : Fin 7, j < 6 → ∃ d : Digit, caseNorm (symbolField 0x5A5A5A5A5A5A49 j) = alpha d := by decide

theorem witness_codes_valid : CodesValid 0x58354747424837 ∧ ¬ CodesValid 0x5A5A5A5A5A5A49 := by unfold CodesValid; decide

theorem witness_lanes : symbolField 0x5A5A5A5A5A5A41 0 = symbolField 0x5A5A5A5A5A5A5A 0 := by decide

theorem witness_overflow : CodesValid 0x58354747424850 ∧ 2 ^ 32 ≤ groupValue 0x58354747424850 := by unfold CodesValid; decide

theorem witness_canonicalises : (decEval 0x35794561547841).decErr = 0 ∧ (decEval 0x35794561547841).decOvf = 0
    ∧ (decEval 0x59595959595959).decOvf = 1 := by decide

theorem witness_every_step_keeps : State.reset.Legal ∧ (State.reset.present (.enc 1)).Legal
    ∧ step (State.reset.present (.enc 1)) = .next (State.reset.present (.enc 1)).settle
    ∧ exec (.dec 1) State.reset = .next ⟨1, encEval 0, decEval 1⟩ := by
  have h : State.reset.Legal := by unfold State.Legal EncLegal DecLegal; decide
  exact ⟨h, h, step_eq_settle _, exec_dec 1 State.reset⟩

theorem witness_runs_observe_settled : State.reset.enc.encIn = (State.reset.unsettled 0).enc.encIn
    ∧ State.reset.dec.decSym = (State.reset.unsettled 0).dec.decSym := ⟨rfl, rfl⟩

theorem witness_one_evaluation : ([1, 2, 3, 4] : List Byte).length % 4 = 0
    ∧ ([0x5A, 0x5A, 0x5A, 0x5A, 0x5A, 0x5A, 0x30] : List Byte).length % 7 = 0 := by decide

theorem witness_ignores_history : State.reset.op = (State.reset.unsettled 0).op
    ∧ State.reset.enc.encIn = (State.reset.unsettled 0).enc.encIn
    ∧ State.reset.dec.decSym = (State.reset.unsettled 0).dec.decSym ∧ step State.reset = .next State.reset.settle :=
  ⟨rfl, rfl, rfl, step_eq_settle _⟩

theorem witness_alignment : ([1, 2, 3, 4, 5, 6, 7, 8] : List Byte).length % 4 = 0
    ∧ (blocksOf [1, 2, 3, 4, 5, 6, 7, 8])[1]? = some 0x05060708
    ∧ ([0x5A, 0x5A, 0x5A, 0x5A, 0x5A, 0x5A, 0x41] : List Byte).length % 7 = 0
    ∧ (groupsOf [0x5A, 0x5A, 0x5A, 0x5A, 0x5A, 0x5A, 0x41])[0]? = some 0x5A5A5A5A5A5A41 := by decide

theorem witness_bad_lengths : ([0] : List Byte).length % 4 ≠ 0 ∧ ([0x41] : List Byte).length % 7 ≠ 0 := by decide

theorem witness_encode_blocks : ([1, 2, 3, 4, 5, 6, 7, 8] : List Byte).length % 4 = 0
    ∧ ([1, 2, 3, 4, 5, 6, 7, 8] : List Byte)[4 * 1]? = some 5 ∧ ([1, 2, 3, 4, 5, 6, 7, 8] : List Byte)[4 * 1 + 1]? = some 6
    ∧ ([1, 2, 3, 4, 5, 6, 7, 8] : List Byte)[4 * 1 + 2]? = some 7
    ∧ ([1, 2, 3, 4, 5, 6, 7, 8] : List Byte)[4 * 1 + 3]? = some 8 := by decide

/-- Group 0 is `ZZZZZZA`, group 1 `ZZZZ0ZZ` (program P3). -/
theorem witness_lowest_invalid_position :
    let t := ascii ['Z', 'Z', 'Z', 'Z', 'Z', 'Z', 'A', 'Z', 'Z', 'Z', 'Z', '0', 'Z', 'Z']
    t.length % 7 = 0 ∧ (groupsOf t)[1]? = some 0x5A5A5A5A305A5A ∧ (decEval 0x5A5A5A5A305A5A).decErr = 1
      ∧ ∀ (k : Nat) (e : Group), k < 1 → (groupsOf t)[k]? = some e → (decEval e).decErr = 0 := by
  refine ⟨by decide, by decide, by decide, fun k e hk he => ?_⟩
  have hk0 : k = 0 := by omega
  subst hk0
  have : e = 0x5A5A5A5A5A5A41 := Option.some.inj (he.symm.trans (by decide))
  subst this
  decide

theorem witness_decode_groups : (ascii ['Y', 'Y', 'Y', 'Y', 'Y', 'Y', 'Y']).length % 7 = 0
    ∧ (∀ g ∈ groupsOf (ascii ['Y', 'Y', 'Y', 'Y', 'Y', 'Y', 'Y']), (decEval g).decErr = 0)
    ∧ (groupsOf (ascii ['Y', 'Y', 'Y', 'Y', 'Y', 'Y', 'Y']))[0]? = some 0x59595959595959 := by
  have h : groupsOf (ascii ['Y', 'Y', 'Y', 'Y', 'Y', 'Y', 'Y']) = [0x59595959595959] := by decide
  rw [h]
  exact ⟨by decide, fun g hg => by rw [List.mem_singleton.mp hg]; decide, rfl⟩

theorem witness_blocks_independent : decodeStream (ascii ['Z', 'Z', 'Z', 'Z', 'Z', 'Z', 'A']) = .ok [0, 0, 0, 1]
    ∧ decodeStream (ascii ['A', 'Z', 'Z', 'Z', 'Z', 'Z', 'Z']) = .ok [0x0B, 0x64, 0, 0] := by decide

theorem witness_streams_round_trip : (ascii ['x', '5', 'g', 'g', 'b', 'h', '7']).length % 7 = 0
    ∧ (∀ c ∈ ascii ['x', '5', 'g', 'g', 'b', 'h', '7'], inv c ≠ none)
    ∧ ∀ g ∈ groupsOf (ascii ['x', '5', 'g', 'g', 'b', 'h', '7']), groupValue g < 2 ^ 32 := by
  have h : groupsOf (ascii ['x', '5', 'g', 'g', 'b', 'h', '7']) = [0x78356767626837] := by decide
  rw [h]
  exact ⟨by decide, by decide, fun g hg => by rw [List.mem_singleton.mp hg]; decide⟩

theorem witness_interleaving :
    let b : Bank := ⟨[State.reset.enc, State.reset.enc], [State.reset.dec]⟩
    (b.run ([.enc 0 1] ++ .enc 1 2 :: [.dec 0 3, .enc 0 4])).isSome = true
      ∧ (∀ w : Block, BankOp.enc 1 w ∉ [BankOp.dec 0 3, .enc 0 4])
      ∧ (b.run ([.enc 0 1] ++ .dec 0 2 :: [.enc 1 3])).isSome = true ∧ ∀ e : Group, BankOp.dec 0 e ∉ [BankOp.enc 1 3] := by
  refine ⟨by decide, fun w => ?_, by decide, fun e => ?_⟩ <;> simp

theorem witness_instances_agree :
    let b : Bank := ⟨[State.reset.enc, State.reset.enc], [State.reset.dec]⟩
    [1, 0].length = ([1, 2, 3, 4, 5, 6, 7, 8] : List Byte).length / 4 ∧ (∀ k ∈ [1, 0], k < b.encs.length)
      ∧ [0].length = ([0x5A, 0x5A, 0x5A, 0x5A, 0x5A, 0x5A, 0x41] : List Byte).length / 7 ∧ ∀ k ∈ [0], k < b.decs.length := by
  decide

end Sys2Proof.Machine
end

section
/-! The alphabet ROM and its inverse (spec/10_state.md R25). -/

namespace Sys2Proof.Machine

@[simp] theorem alphaInverse_alpha (d : Digit) : alphaInverse (alpha d) = some d := by
  have h := inv_alpha d
  rwa [inv, caseNorm_alpha] at h

/-- The inverse gives a digit exactly for that digit's own code: without the case normalisation of `inv_eq_some`. -/
theorem alphaInverse_eq_some (c : Byte) (d : Digit) : alphaInverse c = some d ↔ alpha d = c := by
  constructor
  · intro h
    have hfound := List.find?_some h
    exact eq_of_beq hfound
  · rintro rfl
    exact alphaInverse_alpha d

theorem alpha_injective : Function.Injective alpha := by
  intro d e h
  have hsome : some d = some e := by rw [← alphaInverse_alpha d, h, alphaInverse_alpha]
  exact Option.some.inj hsome

/-- The ROM in digit order holds the 16 letters and the figures 2 to 9, each once. -/
theorem map_alpha_perm_codes : ((List.finRange 24).map alpha).Perm
    (ascii ['Z', 'A', 'C', 'B', 'E', 'F', 'G', 'H', 'T', 'K', 'P', 'R', 'S', 'W', 'X', 'Y', '2', '3', '4', '5', '6', '7', '8',
      '9']) := by decide

/-- A code has a digit exactly when it stands in the ROM. -/
theorem exists_alpha_eq_iff (c : Byte) : (∃ d : Digit, alpha d = c) ↔ c ∈ (List.finRange 24).map alpha := by
  simp [List.mem_map]

/-- The figures 0 and 1 and the ten letters that the alphabet leaves out have no digit. -/
theorem alpha_ne_excluded : ∀ c ∈ ascii ['0', '1', 'D', 'I', 'J', 'L', 'M', 'N', 'O', 'Q', 'U', 'V'], ∀ d : Digit,
    alpha d ≠ c := by decide

/-- Settles O15: the ROM has a left inverse, so it is injective, and the list of its codes is a permutation of the spec's. -/
theorem alphabetIsABijection : Obligations.AlphabetIsABijection :=
  ⟨fun _ _ h => alpha_injective h,
   alphaInverse_eq_some,
   fun c => (exists_alpha_eq_iff c).trans map_alpha_perm_codes.mem_iff,
   alpha_ne_excluded⟩

end Sys2Proof.Machine
end

section
/-! Evaluations and their order (spec/20_memory.md R31, R36, R39). -/

namespace Sys2Proof.Machine

/-! ### Banks: an evaluation writes the ports of the unit it names and no others, so the last one shows -/

theorem Bank.run_cons (b : Bank) (o : BankOp) (rest : List BankOp) :
    b.run (o :: rest) = (b.eval o).bind fun m => m.run rest := by
  rw [Bank.run]
  cases b.eval o <;> rfl

theorem Bank.run_append (b : Bank) (xs ys : List BankOp) : b.run (xs ++ ys) = (b.run xs).bind fun m => m.run ys := by
  induction xs generalizing b with
  | nil => rfl
  | cons o xs ih => simp only [List.cons_append, Bank.run_cons, ih, Option.bind_assoc]

/-- A run taken apart at one of its evaluations. -/
theorem Bank.run_split {b b' : Bank} {before after : List BankOp} {o : BankOp} (h : b.run (before ++ o :: after) = some b') :
    ∃ m m' : Bank, m.eval o = some m' ∧ m'.run after = some b' := by
  rw [Bank.run_append] at h
  obtain ⟨m, -, hm⟩ := Option.bind_eq_some_iff.mp h
  rw [Bank.run_cons] at hm
  exact ⟨m, Option.bind_eq_some_iff.mp hm⟩

/-- What each evaluation of a run keeps, the run keeps. -/
theorem Bank.run_keeps {P : Bank → Prop} {ops : List BankOp} {b b' : Bank}
    (keeps : ∀ o ∈ ops, ∀ m m' : Bank, m.eval o = some m' → P m → P m') (h : b.run ops = some b') (hb : P b) : P b' := by
  induction ops generalizing b with
  | nil => exact Option.some.inj h ▸ hb
  | cons o rest ih =>
    rw [Bank.run_cons] at h
    obtain ⟨m, heval, hrest⟩ := Option.bind_eq_some_iff.mp h
    exact ih (fun o' ho' => keeps o' (List.mem_cons_of_mem o ho')) hrest (keeps o List.mem_cons_self b m heval hb)

theorem Bank.eval_enc_shows {b b' : Bank} {k : Nat} {v : Block} (h : b.eval (.enc k v) = some b') :
    b'.encs[k]? = some (encEval v) := by
  obtain ⟨_, _, ho, hk, rfl⟩ | ⟨_, _, ho, -⟩ := Bank.eval_eq_some b b' _ h
  · cases ho
    exact List.getElem?_set_self hk
  · cases ho

theorem Bank.eval_dec_shows {b b' : Bank} {k : Nat} {c : Group} (h : b.eval (.dec k c) = some b') :
    b'.decs[k]? = some (decEval c) := by
  obtain ⟨_, _, ho, -⟩ | ⟨_, _, ho, hk, rfl⟩ := Bank.eval_eq_some b b' _ h
  · cases ho
  · cases ho
    exact List.getElem?_set_self hk

theorem Bank.eval_keeps_enc {b b' : Bank} {o : BankOp} {k : Nat} (h : b.eval o = some b') (ho : ∀ w : Block, o ≠ .enc k w) :
    b'.encs[k]? = b.encs[k]? := by
  obtain ⟨j, w, rfl, -, rfl⟩ | ⟨_, _, -, -, rfl⟩ := Bank.eval_eq_some b b' o h
  · have hjk : j ≠ k := fun heq => ho w (heq ▸ rfl)
    exact List.getElem?_set_ne hjk
  · rfl

theorem Bank.eval_keeps_dec {b b' : Bank} {o : BankOp} {k : Nat} (h : b.eval o = some b') (ho : ∀ e : Group, o ≠ .dec k e) :
    b'.decs[k]? = b.decs[k]? := by
  obtain ⟨_, _, -, -, rfl⟩ | ⟨j, e, rfl, -, rfl⟩ := Bank.eval_eq_some b b' o h
  · rfl
  · have hjk : j ≠ k := fun heq => ho e (heq ▸ rfl)
    exact List.getElem?_set_ne hjk

/-- An encoder's ports stay as they are while only other units evaluate. -/
theorem Bank.run_keeps_enc {b b' : Bank} {ops : List BankOp} {k : Nat} {p : EncPorts} (h : b.run ops = some b')
    (hops : ∀ w : Block, BankOp.enc k w ∉ ops) (hp : b.encs[k]? = some p) : b'.encs[k]? = some p :=
  Bank.run_keeps (P := fun m => m.encs[k]? = some p)
    (fun _ ho _ _ heval hm => (Bank.eval_keeps_enc heval fun w hw => hops w (hw ▸ ho)).trans hm) h hp

/-- A decoder's ports stay as they are while only other units evaluate. -/
theorem Bank.run_keeps_dec {b b' : Bank} {ops : List BankOp} {k : Nat} {p : DecPorts} (h : b.run ops = some b')
    (hops : ∀ e : Group, BankOp.dec k e ∉ ops) (hp : b.decs[k]? = some p) : b'.decs[k]? = some p :=
  Bank.run_keeps (P := fun m => m.decs[k]? = some p)
    (fun _ ho _ _ heval hm => (Bank.eval_keeps_dec heval fun e he => hops e (he ▸ ho)).trans hm) h hp

/-- Settles O48: the named evaluation leaves its result on its unit, and the evaluations after it keep it there. -/
theorem interleavingDoesNotMatter : Obligations.InterleavingDoesNotMatter := by
  constructor
  · intro b b' before after k v hrun hafter
    obtain ⟨m, m', heval, hrest⟩ := Bank.run_split hrun
    exact Bank.run_keeps_enc hrest hafter (Bank.eval_enc_shows heval)
  · intro b b' before after k c hrun hafter
    obtain ⟨m, m', heval, hrest⟩ := Bank.run_split hrun
    exact Bank.run_keeps_dec hrest hafter (Bank.eval_dec_shows heval)

/-! ### One step -/

/-- Settling reads the selector and the two driven inputs, and no output. -/
theorem State.settle_congr {s r : State} (hop : s.op = r.op) (hin : s.enc.encIn = r.enc.encIn)
    (hsym : s.dec.decSym = r.dec.decSym) : s.settle = r.settle := by
  rw [State.settle_eq, State.settle_eq, hop, hin, hsym]

theorem step_eq_next_iff (s t : State) : step s = .next t ↔ t = s.settle := by
  rw [step_eq_settle, Host.Outcome.next.injEq, eq_comm]

/-- Settles O31: a step is settling, which forgets the outputs, keeps the inputs and is idempotent. -/
theorem evaluationIgnoresHistory : Obligations.EvaluationIgnoresHistory := by
  constructor
  · intro s r hop hin hsym
    rw [step_eq_settle, step_eq_settle, State.settle_congr hop hin hsym]
  · intro s t hstep
    obtain rfl := (step_eq_next_iff s t).mp hstep
    have hagain : step s.settle = .next s.settle := (step_eq_next_iff _ _).mpr s.settle_settle.symm
    exact ⟨s.settle_op, rfl, rfl, hagain⟩

/-! ### Byte order -/

/-- Settles O32: a block's number and its byte view are inverse readings of one concatenation, first byte on top. -/
theorem blocksAreBigEndian : Obligations.BlocksAreBigEndian :=
  ⟨fun b0 b1 b2 b3 => ⟨blockOfBytes_toNat b0 b1 b2 b3, blockBytes_blockOfBytes b0 b1 b2 b3⟩,
   fun v => ⟨blockOfBytes_blockByte v, rfl, rfl, rfl, rfl⟩⟩

end Sys2Proof.Machine
end

section
/-! The output fields of `ENC` (spec/30_encoding.md R47). -/

namespace Sys2Proof.Machine

/-- Both fields of lane `i` show the digit that the decomposer's round for it takes from the number left over by then. -/
theorem encEval_fields (v : Block) (i : Fin 7) {n : Nat} (hleft : remaining v (6 - i.val) = n) :
    digitField (encEval v).encDig i = digitBits (digitOf n) ∧ symbolField (encEval v).encSym i = alpha (digitOf n) := by
  have hdigit : lane (decompose v) i = digitOf n := by rw [decompose, lane_lanesOf, hleft]
  exact ⟨(digitField_encEval v i).trans (congrArg digitBits hdigit),
    (symbolField_encEval v i).trans (congrArg alpha hdigit)⟩

/-- Settles O10: `ENC` settles on `encEval v`, whose field `i` is at the bits that R47 names, lane by lane. -/
theorem encOutputFieldsStandInPlace : Obligations.EncOutputFieldsStandInPlace := by
  intro v s
  obtain ⟨d0, s0⟩ := encEval_fields v 0 (remaining_eq v 6)
  obtain ⟨d1, s1⟩ := encEval_fields v 1 (remaining_eq v 5)
  obtain ⟨d2, s2⟩ := encEval_fields v 2 (remaining_eq v 4)
  obtain ⟨d3, s3⟩ := encEval_fields v 3 (remaining_eq v 3)
  obtain ⟨d4, s4⟩ := encEval_fields v 4 (remaining_eq v 2)
  obtain ⟨d5, s5⟩ := encEval_fields v 5 (n := v.toNat / 24) rfl
  obtain ⟨d6, s6⟩ := encEval_fields v 6 (n := v.toNat) rfl
  exact ⟨_, exec_enc v s, d0, s0, d1, s1, d2, s2, d3, s3, d4, s4, d5, s5, d6, s6⟩

end Sys2Proof.Machine
end

section
/-! What `ENC` shows: digits that are the block's base-24 numeral, and their canonical codes (spec/40_encoder.md R56 to R60). -/

namespace Sys2Proof.Machine

/-! ### Seven digits as a numeral: Mathlib's count of `Fin 7 → Digit`, read from the most significant lane -/

/-- Mathlib's bijection puts weight `24^k` on place `k`, where lane `i` is place `6 - i`. -/
theorem valueOf_eq_finFunctionFinEquiv (d : Fin 7 → Digit) :
    valueOf d = (finFunctionFinEquiv fun i => d i.rev : Fin (24 ^ 7)).val := by
  rw [finFunctionFinEquiv_apply, ← Equiv.sum_comp Fin.revPerm]
  simp [valueOf]

/-- No two numerals of seven digits have the same value. -/
theorem valueOf_injective : Function.Injective valueOf := by
  intro d e h
  rw [valueOf_eq_finFunctionFinEquiv, valueOf_eq_finFunctionFinEquiv] at h
  have hrev := finFunctionFinEquiv.injective (Fin.ext h)
  funext i
  simpa using congrFun hrev i.rev

/-- Seven digits hold every block (R57). -/
theorem block_lt_radix_pow (v : Block) : v.toNat < 24 ^ 7 := v.isLt.trans (by norm_num)

/-- The decomposer inverts the numeral: its lanes are the digits that Mathlib's inverse takes from the block's number. -/
theorem valueOf_decompose (v : Block) : valueOf (lane (decompose v)) = v.toNat := by
  have hdigits : (fun i : Fin 7 => lane (decompose v) i.rev)
      = finFunctionFinEquiv.symm (⟨v.toNat, block_lt_radix_pow v⟩ : Fin (24 ^ 7)) := by
    funext i
    have hround : 6 - i.rev.val = i.val := by rw [Fin.val_rev]; omega
    apply Fin.ext
    rw [lane_decompose, remaining_eq, hround]
    rfl
  rw [valueOf_eq_finFunctionFinEquiv, hdigits, Equiv.apply_symm_apply]

/-- The seven rounds use the block up (R57). -/
theorem remaining_seven (v : Block) : remaining v 7 = 0 := by
  rw [remaining_eq, Nat.div_eq_of_lt (block_lt_radix_pow v)]

/-! ### The encoder's fields -/

theorem digitField_encEval_toNat (v : Block) (i : Fin 7) :
    (digitField (encEval v).encDig i).toNat = (lane (decompose v) i).val := by
  rw [digitField_encEval, digitBits_toNat]

/-- The ROM holds no lower-case code. -/
theorem alpha_not_lower_case : ∀ d : Digit, ¬ (0x61 ≤ (alpha d).toNat ∧ (alpha d).toNat ≤ 0x7A) := by decide

/-- Settles O12: the decomposer's digits have the block's value, and a numeral of seven digits is determined by its value. -/
theorem digitsRepresentTheBlock : Obligations.DigitsRepresentTheBlock := by
  intro v
  simp only [digitField_encEval_toNat]
  refine ⟨(valueOf_decompose v).symm, fun i => Nat.le_of_lt_succ (lane (decompose v) i).isLt, remaining_seven v, ?_⟩
  intro d hd i
  have hsame : lane (decompose v) = d := valueOf_injective ((valueOf_decompose v).trans hd)
  rw [hsame]

/-- Settles O9: `ENC` settles on `encEval v`, whose lane `i` is filled in the round after `6 - i` divisions by 24. -/
theorem encCompletesWithDigitsAndSymbols : Obligations.EncCompletesWithDigitsAndSymbols := by
  intro v s
  refine ⟨_, exec_enc v s, rfl, rfl, fun i => ?_⟩
  obtain ⟨hdigit, hsymbol⟩ := encEval_fields v i (remaining_eq v (6 - i.val))
  refine ⟨?_, hsymbol⟩
  rw [hdigit, digitBits_toNat, digitOf]

/-- Settles O14: every symbol field is an entry of the ROM, and none of those is lower case. -/
theorem encEmitsCanonicalCodes : Obligations.EncEmitsCanonicalCodes := by
  intro v s
  refine ⟨_, exec_enc v s, fun i => ?_⟩
  rw [symbolField_encEval]
  exact ⟨⟨_, rfl⟩, alpha_not_lower_case _⟩

end Sys2Proof.Machine
end

section
/-! What `DEC` shows: the lanes' validity and digits, the exact sum, overflow and error status (spec/41_decoder.md R63 to R69). -/

namespace Sys2Proof.Machine

/-! ### The validator lane -/

theorem laneValid_inv_iff (c : Byte) : laneValid (inv c) = true ↔ ∃ d : Digit, caseNorm c = alpha d := by
  rw [laneValid, Option.isSome_iff_exists]
  exact exists_congr (inv_eq_some c)

theorem inv_eq_none (c : Byte) : inv c = none ↔ ∀ d : Digit, caseNorm c ≠ alpha d := by
  rw [Option.eq_none_iff_forall_ne_some]
  exact forall_congr' fun d => not_congr (inv_eq_some c d)

/-- Case normalisation changes nothing but the case: a code is its normal form or the lower case of it. -/
theorem eq_caseNorm_or_eq_lowerCase (c : Byte) : c = caseNorm c ∨ c = lowerCase (caseNorm c) := by
  by_cases hlower : 0x61 ≤ c.toNat ∧ c.toNat ≤ 0x7A
  · have hupper : 0x41 ≤ (c - 0x20).toNat ∧ (c - 0x20).toNat ≤ 0x5A := by bv_omega
    right
    rw [caseNorm, if_pos hlower, lowerCase, if_pos hupper, BitVec.sub_add_cancel]
  · exact .inl (if_neg hlower).symm

/-- A symbol is accepted in its own form and in lower case, and in no other. -/
theorem caseNorm_eq_alpha_iff (c : Byte) (d : Digit) : caseNorm c = alpha d ↔ c = alpha d ∨ c = lowerCase (alpha d) := by
  constructor
  · intro h
    have hforms := eq_caseNorm_or_eq_lowerCase c
    rwa [h] at hforms
  · rintro (rfl | rfl)
    · exact caseNorm_alpha d
    · rw [caseNorm_lowerCase, caseNorm_alpha]

/-- The lower-case codes of the 16 letters of the alphabet. -/
def lowerCodes : List Byte :=
  ascii ['a', 'b', 'c', 'e', 'f', 'g', 'h', 'k', 'p', 'r', 's', 't', 'w', 'x', 'y', 'z']

/-- The lower case of a symbol is the symbol itself, for the figures, or one of the 16 letters. -/
theorem lowerCase_alpha_cases : ∀ d : Digit, lowerCase (alpha d) = alpha d ∨ lowerCase (alpha d) ∈ lowerCodes := by decide

theorem exists_lowerCase_alpha_of_mem : ∀ c ∈ lowerCodes, ∃ d : Digit, c = lowerCase (alpha d) := by decide

theorem laneValid_inv_iff_mem (c : Byte) : laneValid (inv c) = true ↔ (∃ d : Digit, c = alpha d) ∨ c ∈ lowerCodes := by
  simp only [laneValid_inv_iff, caseNorm_eq_alpha_iff]
  constructor
  · rintro ⟨d, rfl | rfl⟩
    · exact .inl ⟨d, rfl⟩
    · exact (lowerCase_alpha_cases d).imp (fun h => ⟨d, h⟩) id
  · rintro (⟨d, rfl⟩ | h)
    · exact ⟨d, .inl rfl⟩
    · obtain ⟨d, hd⟩ := exists_lowerCase_alpha_of_mem c h
      exact ⟨d, .inr hd⟩

set_option maxRecDepth 100000 in
/-- The validator's table of 256 codes, counted. -/
theorem count_accepted_codes : ((List.range 256).filter fun n => laneValid (inv (BitVec.ofNat 8 n))).length = 40 := by decide

/-- Settles O16: a code is accepted exactly when its normal form is a symbol, which a code and its lower case share. -/
theorem validatorAcceptsFortyCodes : Obligations.ValidatorAcceptsFortyCodes := by
  refine ⟨fun _ => rfl, fun c d h => ?_, fun c h => ?_, laneValid_inv_iff_mem, count_accepted_codes⟩
  · rw [(inv_eq_some c d).mpr h]
    exact ⟨rfl, rfl⟩
  · rw [(inv_eq_none c).mpr h]
    exact ⟨rfl, rfl⟩

/-- Settles O21: lane `i` is the validator applied to code `i`. -/
theorem lanesAreIndependent : Obligations.LanesAreIndependent := by
  intro c e i h
  refine ⟨lane_validate c i, ?_⟩
  rw [lane_validate, lane_validate, h]

/-! ### The evaluator -/

theorem weight_eq (i : Fin 7) : weight i = 24 ^ (6 - i.val) := by
  match i with
  | 0 | 1 | 2 | 3 | 4 | 5 | 6 => rfl

theorem weightedSum_eq_valueOf (g : Lanes Digit) : weightedSum g = valueOf (lane g) := by
  simp only [valueOf, ← weight_eq, Fin.sum_univ_seven]
  rfl

theorem valueOf_lt (d : Fin 7 → Digit) : valueOf d < 24 ^ 7 := by
  rw [valueOf_eq_finFunctionFinEquiv]
  exact Fin.isLt _

theorem weightedSum_lt (g : Lanes Digit) : weightedSum g < 4586471424 := weightedSum_eq_valueOf g ▸ valueOf_lt (lane g)

/-- `S * 24 + g` with no truncation. -/
def exactHornerStep (n : Nat) (d : Digit) : Nat := n * 24 + d.val

/-- The 33-bit step is the exact one modulo `2^33`. -/
theorem hornerStep_ofNat (n : Nat) (d : Digit) : hornerStep (BitVec.ofNat 33 n) d = BitVec.ofNat 33 (exactHornerStep n d) := by
  have hdigit : (digitBits d).setWidth 33 = BitVec.ofNat 33 d.val := by
    rw [← digitBits_toNat d, BitVec.ofNat_toNat]
  rw [hornerStep, exactHornerStep, hdigit, BitVec.ofNat_add, BitVec.ofNat_mul]

theorem foldl_exactHornerStep (g : Lanes Digit) : (lanesList g).foldl exactHornerStep 0 = weightedSum g := by
  simp only [lanesList, List.foldl_cons, List.foldl_nil, exactHornerStep, weightedSum, weight]
  ring

theorem hornerSum_eq_ofNat (g : Lanes Digit) : hornerSum g = BitVec.ofNat 33 (weightedSum g) := by
  rw [← foldl_exactHornerStep g]
  exact List.foldl_hom (BitVec.ofNat 33) hornerStep_ofNat

/-- Settles O22: the Horner form is the sum modulo `2^33`, and seven digits make a number below `24^7 < 2^33`. -/
theorem hornerFormIsExact : Obligations.HornerFormIsExact := by
  refine ⟨weight_eq, rfl, fun g => ?_⟩
  have hlt := weightedSum_lt g
  have hfits : weightedSum g < 2 ^ 33 := by omega
  refine ⟨weightedSum_eq_valueOf g, by omega, hfits, ?_⟩
  rw [hornerSum_eq_ofNat, BitVec.toNat_ofNat, Nat.mod_eq_of_lt hfits]

/-! ### Error status -/

theorem codesValid_iff_allValid (c : Group) : CodesValid c ↔ allValid (validate c) = true := by
  rw [allValid_iff]
  refine forall_congr' fun i => ?_
  rw [lane_validate]
  exact (laneValid_inv_iff _).symm

theorem laneSum_validate (c : Group) : laneSum (validate c) = groupValue c := by
  rw [laneSum, weightedSum_eq_valueOf]
  refine congrArg valueOf (funext fun i => ?_)
  rw [lane_lanesMap, lane_validate]

theorem overflows_iff (n : Nat) : overflows n = true ↔ 2 ^ 32 ≤ n := decide_eq_true_iff

theorem bit_eq_one_iff (b : Bool) : (if b then 1 else 0 : BitVec 1) = 1 ↔ b = true := by revert b; decide

/-- The decoder on an error-free group, in terms of the group's value alone. -/
theorem decEval_of_codesValid {c : Group} (h : CodesValid c) :
    decEval c = ⟨c, BitVec.ofNat 32 (groupValue c), 0, 0, if overflows (groupValue c) then 1 else 0⟩ := by
  obtain ⟨g, hg⟩ := exists_digits_of_allValid _ ((codesValid_iff_allValid c).mp h)
  have hsum : groupValue c = weightedSum g := by rw [← laneSum_validate, hg, laneSum_some]
  rw [decEval_valid c g hg, hsum]

/-- The clauses of R69 for an error-free group. -/
theorem decEval_status_of_codesValid {c : Group} (h : CodesValid c) :
    (decEval c).decErr = 0 ∧ (decEval c).decBadIdx = 0 ∧ (decEval c).decOut.toNat = groupValue c % 2 ^ 32
      ∧ ((decEval c).decOvf = 1 ↔ 2 ^ 32 ≤ groupValue c) := by
  rw [decEval_of_codesValid h, ← overflows_iff]
  exact ⟨rfl, rfl, BitVec.toNat_ofNat _ _, bit_eq_one_iff _⟩

/-- The clauses of R69 for a group with an invalid code. -/
theorem decEval_status_of_not_codesValid {c : Group} (h : ¬ CodesValid c) :
    (decEval c).decErr = 1 ∧ (decEval c).decOut = 0 ∧ (decEval c).decOvf = 0
      ∧ ∃ k : Fin 7, (decEval c).decBadIdx.toNat = k.val ∧ inv (symbolField c k) = none
        ∧ ∀ j : Fin 7, j < k → inv (symbolField c j) ≠ none := by
  have hinvalid : allValid (validate c) = false := by rwa [codesValid_iff_allValid, Bool.not_eq_true] at h
  obtain ⟨k, hidx, hbad, hbelow⟩ := lowestInvalid_spec _ hinvalid
  simp only [lane_validate] at hbad hbelow
  rw [decEval_invalid c hinvalid]
  exact ⟨rfl, rfl, rfl, k, hidx, hbad, fun j hj => Option.isSome_iff_ne_none.mp (hbelow j hj)⟩

/-- Settles O19: `DEC` settles on `decEval c`, whose status `all_valid` decides. -/
theorem errorStatusAndPrecedence : Obligations.ErrorStatusAndPrecedence := fun c s =>
  ⟨_, exec_dec c s, decEval_status_of_codesValid, decEval_status_of_not_codesValid⟩

/-! ### Overflow -/

/-- Below `2^33`, being at least `2^32` is having bit 32. -/
theorem overflows_eq_testBit {n : Nat} (h : n < 2 ^ 33) : overflows n = n.testBit 32 := by
  rw [overflows, Nat.testBit_eq_decide_div_mod_eq, decide_eq_decide]
  omega

/-- Every number below `24^7` is the value of a numeral of seven digits. -/
theorem exists_valueOf_eq {n : Nat} (h : n < 24 ^ 7) : ∃ d : Fin 7 → Digit, valueOf d = n := by
  refine ⟨fun i => finFunctionFinEquiv.symm (⟨n, h⟩ : Fin (24 ^ 7)) i.rev, ?_⟩
  simp only [valueOf_eq_finFunctionFinEquiv, Fin.rev_rev, Equiv.apply_symm_apply]

theorem overflows_lanesOf_iff (d : Fin 7 → Digit) : overflows (weightedSum (lanesOf d)) = true ↔ 2 ^ 32 ≤ valueOf d := by
  have hlanes : lane (lanesOf d) = d := funext fun i => lane_lanesOf d i
  rw [overflows_iff, weightedSum_eq_valueOf, hlanes]

/-- The values of the overflowing groups of digits are the numbers from `2^32` up to the greatest sum. -/
theorem image_valueOf_overflowing :
    (Finset.univ.filter fun d : Fin 7 → Digit => overflows (weightedSum (lanesOf d)) = true).image valueOf
      = Finset.Ico (2 ^ 32) (24 ^ 7) := by
  ext n
  simp only [Finset.mem_image, Finset.mem_filter, Finset.mem_univ, true_and, overflows_lanesOf_iff, Finset.mem_Ico]
  constructor
  · rintro ⟨d, hd, rfl⟩
    exact ⟨hd, valueOf_lt d⟩
  · rintro ⟨hle, hlt⟩
    obtain ⟨d, rfl⟩ := exists_valueOf_eq hlt
    exact ⟨d, hle, rfl⟩

/-- Distinct groups of digits have distinct values, so the groups are counted by their values. -/
theorem card_overflowing :
    (Finset.univ.filter fun d : Fin 7 → Digit => overflows (weightedSum (lanesOf d)) = true).card = 291504128 := by
  rw [← Finset.card_image_of_injective _ valueOf_injective, image_valueOf_overflowing, Nat.card_Ico]
  norm_num

/-- Settles O23: overflow is bit 32 of a 33-bit sum, values number the groups of digits, and overflow is no error by R69. -/
theorem overflowingGroups : Obligations.OverflowingGroups := by
  refine ⟨fun g => ⟨overflows_iff _, overflows_eq_testBit ((weightedSum_lt g).trans (by norm_num))⟩, card_overflowing,
    by decide, by decide, fun c s hvalid hovf => ⟨Nat.le_of_lt_succ (valueOf_lt _), _, exec_dec c s, ?_⟩⟩
  obtain ⟨herr, -, hout, hflag⟩ := decEval_status_of_codesValid hvalid
  exact ⟨herr, hflag.mpr hovf, hout⟩

end Sys2Proof.Machine
end

section
/-! The host's `encode` and `decode` over sequences (spec/42_stream_reference.md R75 to R82). -/

namespace Sys2Proof.Machine

/-! ### Pieces of one length: the concatenation, by position -/

theorem length_flatMap_of_length_eq {α β : Type} {n : Nat} {f : α → List β} (hf : ∀ a, (f a).length = n) (l : List α) :
    (l.flatMap f).length = n * l.length := by
  simp [List.length_flatMap, hf, Nat.mul_comm]

/-- Where every piece has `n` entries, entry `n * k + j` of the concatenation is entry `j` of piece `k`. -/
theorem getElem?_flatMap_of_length_eq {α β : Type} {n : Nat} {f : α → List β} (hf : ∀ a, (f a).length = n) (l : List α)
    (k : Nat) {j : Nat} (hj : j < n) : (l.flatMap f)[n * k + j]? = l[k]?.bind fun a => (f a)[j]? := by
  induction l generalizing k with
  | nil => rfl
  | cons a l ih =>
    rw [List.flatMap_cons]
    cases k with
    | zero =>
      have hin : n * 0 + j < (f a).length := by simpa [hf] using hj
      rw [List.getElem?_append_left hin]
      simp
    | succ k =>
      have hpast : n * (k + 1) + j = (f a).length + (n * k + j) := by rw [hf, Nat.mul_succ]; omega
      rw [hpast, List.getElem?_append_right (Nat.le_add_right _ _), Nat.add_sub_cancel_left, ih, List.getElem?_cons_succ]

theorem blockBytes_length (v : Block) : (blockBytes v).length = 4 := rfl

theorem blockBytes_getElem? (v : Block) (j : Fin 4) : (blockBytes v)[j.val]? = some (blockByte v j) := by
  match j with
  | 0 | 1 | 2 | 3 => rfl

theorem flatMap_blockBytes_getElem? {α : Type} (f : α → Block) (l : List α) (k : Nat) (j : Fin 4) :
    (l.flatMap fun a => blockBytes (f a))[4 * k + j.val]? = l[k]?.map fun a => blockByte (f a) j := by
  rw [getElem?_flatMap_of_length_eq (fun a => blockBytes_length (f a)) l k j.isLt]
  simp only [blockBytes_getElem?, Option.map_eq_bind, Function.comp_def]

theorem flatMap_groupText_getElem? {α : Type} (f : α → Group) (l : List α) (k : Nat) (i : Fin 7) :
    (l.flatMap fun a => groupText (f a))[7 * k + i.val]? = l[k]?.map fun a => symbolField (f a) i := by
  rw [getElem?_flatMap_of_length_eq (fun a => groupText_length (f a)) l k i.isLt]
  simp only [groupText_getElem?, Option.map_eq_bind, Function.comp_def]

/-! ### Splitting whole blocks and whole groups is undone by writing them out (R34) -/

theorem flatMap_blockBytes_blocksOf {x : List Byte} (h : x.length % 4 = 0) : (blocksOf x).flatMap blockBytes = x := by
  refine whole_blocks_induction (P := fun x => (blocksOf x).flatMap blockBytes = x) rfl ?_ x h
  intro b0 b1 b2 b3 rest _ ih
  rw [blocksOf, List.flatMap_cons, blockBytes_blockOfBytes, ih]
  rfl

theorem flatMap_groupText_groupsOf {t : List Byte} (h : t.length % 7 = 0) : (groupsOf t).flatMap groupText = t := by
  refine whole_groups_induction (P := fun t => (groupsOf t).flatMap groupText = t) rfl ?_ t h
  intro c0 c1 c2 c3 c4 c5 c6 rest _ ih
  rw [groupsOf, List.flatMap_cons, groupText_packSymbols, ih]
  rfl

theorem blocksOf_length {x : List Byte} (h : x.length % 4 = 0) : (blocksOf x).length = x.length / 4 := by
  have hlen := length_flatMap_of_length_eq blockBytes_length (blocksOf x)
  rw [flatMap_blockBytes_blocksOf h] at hlen
  omega

theorem groupsOf_length {t : List Byte} (h : t.length % 7 = 0) : (groupsOf t).length = t.length / 7 := by
  have hlen := length_flatMap_of_length_eq groupText_length (groupsOf t)
  rw [flatMap_groupText_groupsOf h] at hlen
  omega

theorem getElem?_eq_blockByte {x : List Byte} (h : x.length % 4 = 0) (k : Nat) (j : Fin 4) :
    x[4 * k + j.val]? = (blocksOf x)[k]?.map fun v => blockByte v j := by
  have hpos := flatMap_blockBytes_getElem? id (blocksOf x) k j
  simpa only [id_eq, flatMap_blockBytes_blocksOf h] using hpos

/-- The four bytes from `4k` on are block `k`. -/
theorem blocksOf_getElem?_of_bytes {x : List Byte} (h : x.length % 4 = 0) {k : Nat} {b0 b1 b2 b3 : Byte}
    (h0 : x[4 * k]? = some b0) (h1 : x[4 * k + 1]? = some b1) (h2 : x[4 * k + 2]? = some b2) (h3 : x[4 * k + 3]? = some b3) :
    (blocksOf x)[k]? = some (blockOfBytes b0 b1 b2 b3) := by
  have hbyte := getElem?_eq_blockByte h k
  obtain ⟨v, hv, rfl⟩ := Option.map_eq_some_iff.mp ((hbyte 0).symm.trans h0)
  simp only [hv, Option.map_some] at hbyte
  obtain rfl := Option.some.inj ((hbyte 1).symm.trans h1)
  obtain rfl := Option.some.inj ((hbyte 2).symm.trans h2)
  obtain rfl := Option.some.inj ((hbyte 3).symm.trans h3)
  rw [hv, blockOfBytes_blockByte]

/-! ### `encode` -/

theorem encodeStream_of_whole {x : List Byte} (h : x.length % 4 = 0) :
    encodeStream x = .ok ((blocksOf x).flatMap fun v => groupText (encEval v).encSym) := if_neg (not_not_intro h)

theorem expand_encode_of_whole {x : List Byte} (h : x.length % 4 = 0) :
    HostOp.expand (.encode x) = (blocksOf x).map fun v => .op (.enc v) := if_neg (not_not_intro h)

/-- Settles O36: every block is written as seven codes, so block `k` of the sequence shows at line `k` and from code `7k` on. -/
theorem encodeConcatenatesBlocks : Obligations.EncodeConcatenatesBlocks := by
  intro x hx
  refine ⟨_, encodeStream_of_whole hx, ?_, ?_, ?_⟩
  · rw [length_flatMap_of_length_eq (fun v => groupText_length (encEval v).encSym), blocksOf_length hx]
  · rw [expand_encode_of_whole hx, List.length_map, blocksOf_length hx]
  · intro k i b0 b1 b2 b3 h0 h1 h2 h3
    have hblock := blocksOf_getElem?_of_bytes hx h0 h1 h2 h3
    rw [expand_encode_of_whole hx, List.getElem?_map, flatMap_groupText_getElem?, hblock]
    exact ⟨rfl, rfl⟩

/-! ### The lowest invalid position: one search over the text, which the decoders do group by group -/

/-- The validator rejects the code (R64). -/
def rejected (c : Byte) : Bool := !laneValid (inv c)

theorem rejected_iff (c : Byte) : rejected c = true ↔ inv c = none := by
  rw [rejected, laneValid, Option.not_isSome, Option.isNone_iff_eq_none]

theorem findIdx?_rejected_eq_some_iff (t : List Byte) (pos : Nat) :
    t.findIdx? rejected = some pos ↔
      (∃ c : Byte, t[pos]? = some c ∧ inv c = none) ∧ ∀ (j : Nat) (c : Byte), j < pos → t[j]? = some c → inv c ≠ none := by
  simp only [List.findIdx?_eq_some_iff_getElem, rejected_iff, List.getElem?_eq_some_iff]
  constructor
  · rintro ⟨hpos, hbad, hbelow⟩
    refine ⟨⟨_, ⟨hpos, rfl⟩, hbad⟩, ?_⟩
    rintro j _ hj ⟨-, rfl⟩
    exact hbelow j hj
  · rintro ⟨⟨_, ⟨hpos, rfl⟩, hbad⟩, hbelow⟩
    exact ⟨hpos, hbad, fun j hj => hbelow j _ hj ⟨hj.trans hpos, rfl⟩⟩

theorem decErr_eq_zero_iff (c : Group) : (decEval c).decErr = 0 ↔ CodesValid c := by
  constructor
  · intro h
    by_contra hc
    have herr := (decEval_status_of_not_codesValid hc).1
    exact absurd (h.symm.trans herr) (by decide)
  · exact fun h => (decEval_status_of_codesValid h).1

theorem findIdx?_rejected_of_codesValid {c : Group} (h : CodesValid c) : (groupText c).findIdx? rejected = none := by
  rw [List.findIdx?_eq_none_iff]
  intro b hb
  obtain ⟨i, hi, rfl⟩ := List.mem_iff_getElem.mp hb
  have hfield := groupText_getElem? c ⟨i, hi⟩
  rw [List.getElem?_eq_getElem hi, Option.some.injEq] at hfield
  have haccepted := (laneValid_inv_iff _).mpr (h ⟨i, hi⟩)
  rw [hfield, rejected, haccepted, Bool.not_true]

/-- The decoder's index is where the search over its group's codes ends (R69). -/
theorem findIdx?_rejected_of_not_codesValid {c : Group} (h : ¬ CodesValid c) :
    (groupText c).findIdx? rejected = some (decEval c).decBadIdx.toNat := by
  obtain ⟨-, -, -, k, hidx, hbad, hbelow⟩ := decEval_status_of_not_codesValid h
  rw [hidx, findIdx?_rejected_eq_some_iff]
  refine ⟨⟨_, groupText_getElem? c k, hbad⟩, fun j b hj hb => ?_⟩
  have hfield := groupText_getElem? c ⟨j, hj.trans k.isLt⟩
  obtain rfl := Option.some.inj (hfield.symm.trans hb)
  exact hbelow _ hj

/-- What R80 computes from the groups' status outputs is the lowest position of a rejected code in the groups' text. -/
theorem firstBadFrom_eq_findIdx? (gs : List Group) :
    firstBadFrom 0 (gs.map decEval) = (gs.flatMap groupText).findIdx? rejected := by
  induction gs with
  | nil => rfl
  | cons g gs ih =>
    rw [List.map_cons, firstBadFrom, List.flatMap_cons, List.findIdx?_append]
    by_cases hg : CodesValid g
    · have herr : ¬ (decEval g).decErr = 1 := by rw [(decErr_eq_zero_iff g).mpr hg]; decide
      rw [if_neg herr, findIdx?_rejected_of_codesValid hg, Option.none_or, firstBadFrom_add, ih, groupText_length]
    · have herr := (decEval_status_of_not_codesValid hg).1
      rw [if_pos herr, findIdx?_rejected_of_not_codesValid hg, Option.some_or, Nat.mul_zero, Nat.zero_add]

/-- The lowest group in error decides, wherever the count starts. -/
theorem firstBadFrom_of_lowest {r : List DecPorts} {k0 : Nat} {p : DecPorts} (hp : r[k0]? = some p) (herr : p.decErr = 1)
    (hbelow : ∀ k q, k < k0 → r[k]? = some q → q.decErr = 0) (m : Nat) :
    firstBadFrom m r = some (7 * (m + k0) + p.decBadIdx.toNat) := by
  induction r generalizing k0 m with
  | nil => cases hp
  | cons q r ih =>
    rw [firstBadFrom]
    cases k0 with
    | zero =>
      obtain rfl := Option.some.inj hp
      exact if_pos herr
    | succ k0 =>
      have hq : ¬ q.decErr = 1 := by rw [hbelow 0 q k0.succ_pos rfl]; decide
      rw [if_neg hq, ih hp (fun k q' hk => hbelow (k + 1) q' (Nat.succ_lt_succ hk)), Nat.add_assoc, Nat.add_comm 1 k0]

theorem firstBadFrom_eq_none {r : List DecPorts} (h : ∀ p ∈ r, p.decErr = 0) (m : Nat) : firstBadFrom m r = none := by
  induction r generalizing m with
  | nil => rfl
  | cons p r ih =>
    obtain ⟨hp, hr⟩ := List.forall_mem_cons.mp h
    have herr : ¬ p.decErr = 1 := by rw [hp]; decide
    rw [firstBadFrom, if_neg herr, ih hr]

/-! ### `decode` -/

theorem decodeStream_of_whole {t : List Byte} (h : t.length % 7 = 0) :
    decodeStream t = collectDecoded ((groupsOf t).map decEval) := if_neg (not_not_intro h)

theorem collectDecoded_eq_fail_iff (r : List DecPorts) (pos : Nat) :
    collectDecoded r = .fail .decInvalidChar (some pos) ↔ firstBadFrom 0 r = some pos := by
  rw [collectDecoded]
  cases firstBadFrom 0 r <;> simp

theorem collectDecoded_of_no_error {r : List DecPorts} (h : firstBadFrom 0 r = none) :
    collectDecoded r = .ok (r.flatMap fun p => blockBytes p.decOut) := by
  rw [collectDecoded, h]

theorem decodeStream_eq_fail_iff {t : List Byte} (h : t.length % 7 = 0) (pos : Nat) :
    decodeStream t = .fail .decInvalidChar (some pos) ↔ firstBadFrom 0 ((groupsOf t).map decEval) = some pos := by
  rw [decodeStream_of_whole h, collectDecoded_eq_fail_iff]

/-- Settles O37: the walk over the groups stops at the lowest one in error, and finds what a search over all codes finds. -/
theorem decodeReportsTheLowestInvalidPosition : Obligations.DecodeReportsTheLowestInvalidPosition := by
  constructor
  · intro t k0 g ht hg herr hbelow
    have hports : ((groupsOf t).map decEval)[k0]? = some (decEval g) := by rw [List.getElem?_map, hg]; rfl
    have hfirst := firstBadFrom_of_lowest hports herr (m := 0) fun k q hk hq => by
      rw [List.getElem?_map] at hq
      obtain ⟨e, he, rfl⟩ := Option.map_eq_some_iff.mp hq
      exact hbelow k e hk he
    rwa [decodeStream_eq_fail_iff ht, ← Nat.zero_add k0]
  · intro t pos ht
    rw [decodeStream_eq_fail_iff ht, firstBadFrom_eq_findIdx?, flatMap_groupText_groupsOf ht, findIdx?_rejected_eq_some_iff]

theorem decodeStream_of_no_error {t : List Byte} (ht : t.length % 7 = 0) (h : ∀ g ∈ groupsOf t, (decEval g).decErr = 0) :
    decodeStream t = .ok ((groupsOf t).flatMap fun g => blockBytes (decEval g).decOut) := by
  have hnone := firstBadFrom_eq_none (List.forall_mem_map.mpr h) 0
  rw [decodeStream_of_whole ht, collectDecoded_of_no_error hnone, List.flatMap_map]

/-- Settles O38: no status stops the call, every group gives four bytes, and an error-free group's `dec_out` is its wrapped sum. -/
theorem decodeConcatenatesGroups : Obligations.DecodeConcatenatesGroups := by
  intro t ht hvalid
  refine ⟨_, decodeStream_of_no_error ht hvalid, ?_, fun k g hg => ⟨?_, fun j => ?_⟩⟩
  · rw [length_flatMap_of_length_eq (fun g => blockBytes_length (decEval g).decOut), groupsOf_length ht]
  · have hcodes : CodesValid g := (decErr_eq_zero_iff g).mp (hvalid g (List.mem_of_getElem? hg))
    rw [decEval_of_codesValid hcodes]
  · rw [flatMap_blockBytes_getElem?, hg, Option.map_some]

/-! ### The array representation (R75) -/

/-- A byte's integer stands for that byte. -/
theorem bytesOfArray_toNat (x : List Byte) : bytesOfArray (x.map fun b => (b.toNat : Int)) = some x := by
  induction x with
  | nil => rfl
  | cons b x ih =>
    have hrange : 0 ≤ (b.toNat : Int) ∧ (b.toNat : Int) ≤ 255 := by have := b.isLt; omega
    rw [List.map_cons, bytesOfArray, if_pos hrange, ih, Int.toNat_natCast, BitVec.ofNat_toNat]
    rfl

theorem bytesOfArray_isSome_iff (a : List Int) : (bytesOfArray a).isSome = true ↔ ∀ n ∈ a, 0 ≤ n ∧ n ≤ 255 := by
  induction a with
  | nil => simp [bytesOfArray]
  | cons n a ih =>
    rw [bytesOfArray, List.forall_mem_cons, ← ih]
    by_cases hn : 0 ≤ n ∧ n ≤ 255
    · rw [if_pos hn, Option.isSome_map, and_iff_right hn]
    · rw [if_neg hn, Option.isSome_none, Bool.false_eq_true, false_iff]
      exact fun ⟨hrange, _⟩ => hn hrange

/-- Settles O44: `bytesOfArray` inverts the reading of bytes as integers and answers exactly for integers in range. -/
theorem arraysAndBytesAgree : Obligations.ArraysAndBytesAgree := by
  constructor
  · intro x
    rw [encodeArray, bytesOfArray_toNat, Option.map_some]
  · intro a
    rw [← Option.isSome_iff_exists, encodeArray, Option.isSome_map, bytesOfArray_isSome_iff]

/-! ### Lengths come first -/

/-- Settles O34: the length is the first condition that each of the four functions asks for. -/
theorem badLengthsFailFirst : Obligations.BadLengthsFailFirst :=
  ⟨fun _ hbad => ⟨if_pos hbad, if_pos hbad⟩, fun _ hbad => ⟨if_pos hbad, if_pos hbad⟩, rfl, rfl⟩

end Sys2Proof.Machine
end

section
/-! Line words: `decode` in terms of the word's number, its inverse, and the opcode table (spec/30_encoding.md R45 to R50). -/

namespace Sys2Proof

/-! ### `decode`, read off the word's number -/

theorem wordSelector_toNat (w : LineWord) : (wordSelector w).toNat = w.toNat % 2 := by
  rw [wordSelector, field_toNat, pow_zero, Nat.div_one, pow_one]

theorem wordSelector_eq_zero_iff (w : LineWord) : wordSelector w = 0 ↔ w.toNat % 2 = 0 := by
  rw [← BitVec.toNat_inj, wordSelector_toNat]
  rfl

/-- The top bits of a word are zero exactly when its number ends below them. -/
theorem extractLsb'_top_eq_zero_iff (w : LineWord) {start len : Nat} (htop : start + len = 64) :
    w.extractLsb' start len = 0 ↔ w.toNat < 2 ^ start := by
  have hquot : w.toNat / 2 ^ start < 2 ^ len := by
    apply Nat.div_lt_of_lt_mul
    rw [← pow_add, htop]
    exact w.isLt
  rw [← BitVec.toNat_inj, field_toNat, Nat.mod_eq_of_lt hquot]
  exact Nat.div_eq_zero_iff_lt (Nat.two_pow_pos start)

/-- All that `decode` answers: bit 0 names the format, and the number must end where the format's bus does. -/
theorem decode_eq (w : LineWord) :
    decode w = if w.toNat % 2 = 0 then
        (if w.toNat < 2 ^ 33 then .ok (.enc (wordEncBus w)) else .error .encBusTooWide)
      else if w.toNat < 2 ^ 57 then .ok (.dec (wordDecBus w)) else .error .decBusTooWide := by
  simp only [decode, wordSelector_eq_zero_iff, extractLsb'_top_eq_zero_iff w (start := 33) (len := 31) rfl,
    extractLsb'_top_eq_zero_iff w (start := 57) (len := 7) rfl]

/-- Settles O2: the two refusals are the two `else` branches of `decode`. -/
theorem wordsAboveTheBusAreRefusedByName : Obligations.WordsAboveTheBusAreRefusedByName := by
  intro w
  rw [decode_eq]
  constructor
  · constructor
    · intro h
      split_ifs at h with hop hfit hfit
      · exact ⟨hop, not_lt.mp hfit⟩
      · cases h
    · rintro ⟨hop, hwide⟩
      rw [if_pos hop, if_neg hwide.not_gt]
  · constructor
    · intro h
      split_ifs at h with hop hfit hfit
      · cases h
      · exact ⟨Nat.mod_two_ne_zero.mp hop, not_lt.mp hfit⟩
    · rintro ⟨hop, hwide⟩
      rw [if_neg (by omega), if_neg hwide.not_gt]

/-! ### `encode` and `decode` are inverse -/

theorem decode_encode (i : Instr) : decode (encode i) = .ok i := by
  cases i with
  | enc v => exact decode_lineWord_enc v
  | dec c => exact decode_lineWord_dec c

theorem encode_enc_wordEncBus {w : LineWord} (hop : w.toNat % 2 = 0) (hfit : w.toNat < 2 ^ 33) :
    encode (.enc (wordEncBus w)) = w := by
  apply BitVec.eq_of_toNat_eq
  rw [encode, lineWord_toNat, widen_toNat, wordEncBus, field_toNat]
  change _ + 0 = _
  omega

theorem encode_dec_wordDecBus {w : LineWord} (hop : ¬ w.toNat % 2 = 0) (hfit : w.toNat < 2 ^ 57) :
    encode (.dec (wordDecBus w)) = w := by
  apply BitVec.eq_of_toNat_eq
  rw [encode, lineWord_toNat, wordDecBus, field_toNat]
  change _ + 1 = _
  omega

theorem encode_of_decode_eq_ok {w : LineWord} {i : Instr} (h : decode w = .ok i) : encode i = w := by
  rw [decode_eq] at h
  split_ifs at h with hop hfit hfit
  · obtain rfl := Except.ok.inj h
    exact encode_enc_wordEncBus hop hfit
  · obtain rfl := Except.ok.inj h
    exact encode_dec_wordDecBus hop hfit

/-- Settles O1: a word that decodes has nothing above its bus, so selector and bus are all of it. -/
theorem decodeAndEncodeAgree : Obligations.DecodeAndEncodeAgree :=
  ⟨fun i _ => decode_encode i, fun _ _ => encode_of_decode_eq_ok⟩

/-! ### The opcode table -/

theorem wordSelector_encode (i : Instr) : wordSelector (encode i) = i.selector := by
  cases i with
  | enc v => exact Laws.SelectorBit.enc v
  | dec c => exact Laws.SelectorBit.dec c

/-- The row of spec/opcode_table.json for a value of `op`. -/
def selectorRow (op : BitVec 1) : OpcodeRow := if op = 0 then ⟨"ENC", 1, 0⟩ else ⟨"DEC", 1, 1⟩

theorem selectorRow_mem (op : BitVec 1) : selectorRow op ∈ opcodeTable := by revert op; decide

theorem selectorRow_selector_mnemonic (i : Instr) : (selectorRow i.selector).mnemonic = i.mnemonic := by cases i <;> rfl

/-- Masked with a row's mask, a word keeps its selector bit. -/
theorem and_one_eq_setWidth_wordSelector (w : LineWord) : w &&& 1 = (wordSelector w).setWidth 64 := by
  apply BitVec.eq_of_toNat_eq
  rw [BitVec.toNat_and, BitVec.toNat_setWidth, wordSelector_toNat]
  change w.toNat &&& 1 = _
  rw [Nat.and_one_is_mod]
  omega

theorem mask_of_mem_opcodeTable : ∀ r ∈ opcodeTable, r.mask = 1 := by decide

theorem pattern_eq_selector_iff : ∀ op : BitVec 1, ∀ r ∈ opcodeTable,
    (op.setWidth 64 == r.pattern) = true ↔ r = selectorRow op := by decide

/-- The rows' masks read the selector alone, and each row takes one value of it. -/
theorem covers_iff {r : OpcodeRow} (hr : r ∈ opcodeTable) (w : LineWord) :
    r.covers w = true ↔ r = selectorRow (wordSelector w) := by
  rw [OpcodeRow.covers, mask_of_mem_opcodeTable r hr, and_one_eq_setWidth_wordSelector]
  exact pattern_eq_selector_iff _ r hr

/-- Settles O4: the rows are the two values of the selector bit, which an operation's word keeps. -/
theorem opcodeRowsSplitTheWords : Obligations.OpcodeRowsSplitTheWords := by
  intro w
  constructor
  · have hrow := selectorRow_mem (wordSelector w)
    exact ⟨_, hrow, (covers_iff hrow w).mpr rfl, fun q hq hcov => (covers_iff hq w).mp hcov⟩
  · intro i hdec r hr hcov
    have hsel : wordSelector w = i.selector := by rw [← encode_of_decode_eq_ok hdec, wordSelector_encode]
    rw [(covers_iff hr w).mp hcov, hsel, selectorRow_selector_mnemonic]

end Sys2Proof
end

section
/-! Presenting, stepping, and what every step keeps (spec/30_encoding.md R50; spec/70_reset_and_hazards.md R107, R109). -/

namespace Sys2Proof.Machine

/-! ### A presented operation -/

/-- Settles O6: that is how `step` is defined, whatever is well formed. -/
theorem stepRunsDecodedOperation : Obligations.StepRunsDecodedOperation := by
  intro s i hdec _
  rw [step, hdec]

theorem decode_fetchWord_present (s : State) (i : Instr) : decode (fetchWord (s.present i)) = .ok i := by
  rw [decode_fetchWord]
  cases i <;> rfl

theorem step_present (s : State) (i : Instr) : step (s.present i) = exec i s := by
  rw [step_eq_settle, exec_eq_settle_present]

theorem presentWord_encode (s : State) (i : Instr) : s.presentWord (encode i) = s.present i := by
  cases i with
  | enc v =>
    rw [State.presentWord, encode, wordSelector, wordEncBus, lineWord_selector, lineWord_narrow_bus]
    rfl
  | dec c =>
    rw [State.presentWord, encode, wordSelector, wordDecBus, lineWord_selector, lineWord_bus]
    rfl

theorem tableWord_toNat (w : LineWord) : tableWord 64 w.toNat = w := by
  rw [tableWord, Nat.mod_eq_of_lt w.isLt, BitVec.ofNat_toNat, BitVec.setWidth_eq]

/-- Settles O7: presenting drives exactly what the operation's word says, and `exec` is presenting and settling. -/
theorem presentedOperationRunsNext : Obligations.PresentedOperationRunsNext := by
  intro s i
  refine ⟨decode_fetchWord_present s i, step_present s i, ?_⟩
  rw [State.withFetchWord, tableWord_toNat, presentWord_encode]

/-- Settles O8: a step is settling, which writes outputs alone. -/
theorem everyStepAnswersNext : Obligations.EveryStepAnswersNext := fun s => ⟨s.settle, step_eq_settle s, rfl, rfl, rfl⟩

/-! ### Frames: each unit's ports are its function of its own input -/

/-- Settles O11: `ENC` drives no input of the decoder. -/
theorem encLeavesTheDecoderAlone : Obligations.EncLeavesTheDecoderAlone := fun v s =>
  ⟨_, exec_enc v s, rfl, rfl, fun hsettled => hsettled.symm⟩

/-- Settles O20: `DEC` drives no input of the encoder. -/
theorem decLeavesTheEncoderAlone : Obligations.DecLeavesTheEncoderAlone := fun c s =>
  ⟨_, exec_dec c s, rfl, rfl, fun hsettled => hsettled.symm⟩

/-! ### Settled ports are legal -/

/-- A block holds the weight of digit 0 at most 22 times (R58). -/
theorem lane_decompose_zero_le (v : Block) : (lane (decompose v) 0).val ≤ 22 := by
  have hv := v.isLt
  rw [lane_decompose, remaining_eq]
  norm_num
  omega

theorem encLegal_encEval (v : Block) : EncLegal (encEval v) := by
  simp only [EncLegal, digitField_encEval_toNat, symbolField_encEval]
  exact ⟨fun i => Nat.le_of_lt_succ (lane (decompose v) i).isLt, lane_decompose_zero_le v, fun i => ⟨_, rfl⟩⟩

theorem decLegal_decEval (c : Group) : DecLegal (decEval c) := by
  by_cases h : CodesValid c
  · obtain ⟨herr, hidx, -, -⟩ := decEval_status_of_codesValid h
    rw [DecLegal, herr, hidx]
    exact ⟨Nat.zero_le 6, fun _ => rfl, fun h10 => absurd h10 (by decide)⟩
  · obtain ⟨herr, hout, hovf, k, hidx, -, -⟩ := decEval_status_of_not_codesValid h
    rw [DecLegal, herr, hidx]
    exact ⟨Nat.le_of_lt_succ k.isLt, fun h10 => absurd h10 (by decide), fun _ => ⟨hout, hovf⟩⟩

theorem State.Settled.legal {s : State} (h : s.Settled) : s.Legal := by
  obtain ⟨henc, hdec⟩ := h
  rw [State.Legal, henc, hdec]
  exact ⟨encLegal_encEval _, decLegal_decEval _⟩

theorem State.settled_settle (s : State) : s.settle.Settled := ⟨rfl, rfl⟩

/-- Settles O28: the reset values are the units' functions of the inputs at 0, by evaluating them. -/
theorem resetIsSettledAndLegal : Obligations.ResetIsSettledAndLegal := by
  have hsettled : State.reset.Settled := by decide
  exact ⟨hsettled, hsettled.legal⟩

/-- Settles O29: a step and every operation end in settling, and settled ports are legal. -/
theorem everyStepKeepsPortsSettledAndLegal : Obligations.EveryStepKeepsPortsSettledAndLegal := by
  constructor
  · intro s t _ hstep
    obtain rfl := (step_eq_next_iff s t).mp hstep
    exact ⟨s.settled_settle, s.settled_settle.legal⟩
  · intro i s t _ hexec
    rw [← step_present] at hexec
    obtain rfl := (step_eq_next_iff _ t).mp hexec
    exact ⟨State.settled_settle _, (State.settled_settle _).legal⟩

/-- Settles O30: settling reads no output, so it forgets what the unsettled ones show. -/
theorem oneEvaluationSettlesAnyOutputs : Obligations.OneEvaluationSettlesAnyOutputs := by
  intro s n
  refine ⟨s.settle, ?_, step_eq_settle s, s.settled_settle, s.settled_settle.legal⟩
  rw [step_eq_settle, State.settle_unsettled]

end Sys2Proof.Machine
end

section
/-! The written form of operation lines (spec/30_encoding.md R54). -/

namespace Sys2Proof.Machine

/-! ### Hex digits -/

theorem readHex_hexDigit (acc : Nat) {d : Nat} (hd : d < 16) : readHex acc [hexDigit d] = some (acc * 16 + d) := by
  have hvalue : hexValue (hexDigit d) = some d := hexValue_hexDigit ⟨d, hd⟩
  rw [readHex, hvalue]
  rfl

/-- The last of `k + 1` digits is the remainder by 16, and the digits before it write the quotient. -/
theorem readHex_printHex (k : Nat) {n : Nat} (hn : n < 16 ^ k) : readHex 0 (printHex k n) = some n := by
  induction k generalizing n with
  | zero =>
    obtain rfl : n = 0 := by omega
    rfl
  | succ k ih =>
    have hquot : n / 16 < 16 ^ k := Nat.div_lt_of_lt_mul (by rwa [pow_succ'] at hn)
    rw [printHex, readHex_append, ih hquot, Option.bind_some, readHex_hexDigit _ (Nat.mod_lt n (by decide)), Nat.div_add_mod']

theorem readHexExactly_printHex (k : Nat) {n : Nat} (hn : n < 16 ^ k) : readHexExactly k (printHex k n) = some n := by
  rw [readHexExactly, if_pos (printHex_length k n), readHex_printHex k hn]

/-! ### The three words that begin a line: no two of them begin the same line -/

theorem dropWord_encHex_decHex (t : List Byte) : dropWord wordEncHex (wordDecHex ++ t) = none := rfl

theorem dropWord_encHex_decText (t : List Byte) : dropWord wordEncHex (wordDecText ++ t) = none := rfl

theorem dropWord_decHex_decText (t : List Byte) : dropWord wordDecHex (wordDecText ++ t) = none := rfl

/-! ### Reading each form back -/

theorem readLine_printLine (i : Instr) : readLine (printLine i) = some i := by
  cases i with
  | enc v =>
    rw [printLine, readLine, dropWord_append]
    simp only [readHexExactly_printHex 8 v.isLt, Option.map_some, BitVec.ofNat_toNat, BitVec.setWidth_eq]
  | dec c =>
    rw [printLine, readLine, dropWord_encHex_decHex, dropWord_append]
    simp only [readHexExactly_printHex 14 c.isLt, Option.map_some, BitVec.ofNat_toNat, BitVec.setWidth_eq]

theorem mem_groupText {c : Byte} {g : Group} : c ∈ groupText g ↔ ∃ i : Fin 7, symbolField g i = c := by
  simp [groupText, lanesList, symbolLanes, lanesOf, Fin.exists_fin_succ, eq_comm]

theorem groupOfText_groupText (g : Group) : groupOfText (groupText g) = some g := by
  change some (packSymbols (symbolLanes g)) = some g
  rw [packSymbols_symbolLanes]

theorem readLine_printDecText {c : Group} (h : ∀ i : Fin 7, printable (symbolField c i) = true) :
    readLine (printDecText c) = some (.dec c) := by
  have hprintable : ∀ b ∈ groupText c, printable b = true := by
    intro b hb
    obtain ⟨i, rfl⟩ := mem_groupText.mp hb
    exact h i
  rw [printDecText, List.append_assoc, readLine, dropWord_encHex_decText, dropWord_decHex_decText, dropWord_append]
  simp only [readQuoted_append _ hprintable, Option.bind_some, groupOfText_groupText, Option.map_some]

/-- Settles O5: each form opens with a word of its own, and what follows the word is read back to the operand. -/
theorem writtenLinesReadBack : Obligations.WrittenLinesReadBack :=
  ⟨readLine_printLine, fun _ => readLine_printDecText⟩

end Sys2Proof.Machine
end

section
/-! Digits and sums: which digits occur, and what the decoder shows for a group given lane by lane (spec/40_encoder.md R58;
spec/41_decoder.md R67 to R69). -/

namespace Sys2Proof.Machine

/-! ### Every digit occurs (R58) -/

/-- Digit `n` in lane `i` and zeros elsewhere is the block `n * 24^(6-i)`, where that is below `2^32`. -/
theorem exists_digitField_eq {i : Fin 7} {n : Nat} (hn : n < 24) (hfits : n * 24 ^ (6 - i.val) < 2 ^ 32) :
    ∃ v : Block, (digitField (encEval v).encDig i).toNat = n := by
  refine ⟨BitVec.ofNat 32 (n * 24 ^ (6 - i.val)), ?_⟩
  rw [digitField_encEval_toNat, lane_decompose, remaining_eq, BitVec.toNat_ofNat, Nat.mod_eq_of_lt hfits,
    Nat.mul_div_cancel n (by positivity), Nat.mod_eq_of_lt hn]

/-- `Y` is digit 23, which lane 0 does not reach. -/
theorem symbolField_zero_ne_Y (v : Block) : symbolField (encEval v).encSym 0 ≠ 0x59 := by
  rw [symbolField_encEval]
  intro h
  have hdigit : lane (decompose v) 0 = 23 := alpha_injective (h.trans (by decide))
  have hle := lane_decompose_zero_le v
  rw [hdigit] at hle
  exact absurd hle (by decide)

/-- Settles O13: the bounds are those of settled ports, and each digit occurs alone in its lane. -/
theorem digitRanges : Obligations.DigitRanges := by
  refine ⟨fun v => ?_, fun i hi n hn => ?_, fun n hn => ?_⟩
  · obtain ⟨hdigits, hzero, -⟩ := encLegal_encEval v
    exact ⟨hzero, symbolField_zero_ne_Y v, hdigits⟩
  · have hweight : 24 ^ (6 - i.val) ≤ 24 ^ 5 := Nat.pow_le_pow_right (by decide) (by omega)
    have hprod : n * 24 ^ (6 - i.val) ≤ 23 * 24 ^ 5 := Nat.mul_le_mul hn hweight
    exact exists_digitField_eq (by omega) (by omega)
  · exact exists_digitField_eq (by omega) (by change n * 24 ^ 6 < 2 ^ 32; omega)

/-! ### The decoder from the lanes' digits, or from the lowest invalid lane -/

theorem groupValue_eq_valueOf {c : Group} {d : Fin 7 → Digit} (h : ∀ i, caseNorm (symbolField c i) = alpha (d i)) :
    groupValue c = valueOf d := by
  refine congrArg valueOf (funext fun i => ?_)
  rw [(inv_eq_some _ _).mpr (h i)]
  rfl

/-- Settles O17: the codes' digits give the group its value, which decides every output of an error-free group. -/
theorem decCompletesOnValidCodes : Obligations.DecCompletesOnValidCodes := by
  intro c s d h
  have hvalid : CodesValid c := fun i => ⟨d i, h i⟩
  rw [exec_dec, decEval_of_codesValid hvalid, groupValue_eq_valueOf h]
  simp only [overflows_iff]

/-- Settles O18: the lowest invalid lane is unique, so the lane that the status reports is lane `k`. -/
theorem decReportsTheLowestInvalidCode : Obligations.DecReportsTheLowestInvalidCode := by
  intro c s k hbad hbelow
  have hinvalid : ¬ CodesValid c := fun h => (h k).elim hbad
  obtain ⟨herr, hout, hovf, j, hidx, hj, hjbelow⟩ := decEval_status_of_not_codesValid hinvalid
  have hjk : j = k := by
    rcases lt_trichotomy j k with hlt | heq | hgt
    · obtain ⟨d, hd⟩ := hbelow j hlt
      exact absurd hd ((inv_eq_none _).mp hj d)
    · exact heq
    · exact absurd ((inv_eq_none _).mpr hbad) (hjbelow k hgt)
  have hidxk : (decEval c).decBadIdx = BitVec.ofNat 3 k.val := by
    rw [← hjk, ← hidx, BitVec.ofNat_toNat, BitVec.setWidth_eq]
  have hports : decEval c = ⟨c, 0, 1, BitVec.ofNat 3 k.val, 0⟩ := by rw [← herr, ← hidxk, ← hout, ← hovf]; rfl
  rw [exec_dec, hports]

/-! ### What reads the codes through the validator cannot tell their case -/

/-- A function applied to each code of a group. -/
def mapCodes (f : Byte → Byte) (g : Group) : Group := packSymbols (lanesMap f (symbolLanes g))

theorem groupUpper_eq_mapCodes : groupUpper = mapCodes caseNorm := rfl

theorem groupLower_eq_mapCodes : groupLower = mapCodes lowerCase := rfl

theorem decEval_mapCodes {f : Byte → Byte} (hf : ∀ c, inv (f c) = inv c) (g : Group) :
    decEval (mapCodes f g) = { decEval g with decSym := mapCodes f g } := by
  have hvalidate : validate (mapCodes f g) = validate g := by
    simp only [validate, mapCodes, symbolLanes_packSymbols, lanesMap_lanesMap, hf]
  simp only [decEval, hvalidate]

/-- Settles O27: neither form changes what the validator reads from a lane. -/
theorem decIsCaseInsensitive : Obligations.DecIsCaseInsensitive := by
  intro c s
  refine ⟨_, _, _, exec_dec c s, exec_dec _ s, exec_dec _ s, ?_⟩
  rw [groupUpper_eq_mapCodes, groupLower_eq_mapCodes, decEval_mapCodes inv_caseNorm, decEval_mapCodes inv_lowerCase]
  simp

/-! ### The round trips of one block and one group (R72, R73) -/

theorem codesValid_encSym (v : Block) : CodesValid (encEval v).encSym := fun i =>
  ⟨lane (decompose v) i, by rw [symbolField_encEval, caseNorm_alpha]⟩

theorem groupValue_encSym (v : Block) : groupValue (encEval v).encSym = v.toNat := by
  rw [groupValue_eq_valueOf (d := lane (decompose v)), valueOf_decompose]
  intro i
  rw [symbolField_encEval, caseNorm_alpha]

/-- The decoder undoes the encoder (R72). -/
theorem decEval_encSym (v : Block) : decEval (encEval v).encSym = ⟨(encEval v).encSym, v, 0, 0, 0⟩ := by
  have hovf : ¬ overflows v.toNat = true := by rw [overflows_iff]; exact not_le.mpr v.isLt
  rw [decEval_of_codesValid (codesValid_encSym v), groupValue_encSym, if_neg hovf, BitVec.ofNat_toNat, BitVec.setWidth_eq]

/-- Settles O25: the encoder's symbols are valid codes whose sum is the block, below `2^32`. -/
theorem encodeThenDecodeIsIdentity : Obligations.EncodeThenDecodeIsIdentity := by
  intro v s
  refine ⟨_, _, exec_enc v s, exec_dec _ _, ?_⟩
  rw [decEval_encSym]
  exact ⟨rfl, rfl, rfl, rfl⟩

/-- A block with the group's value has the group's digits, so it is encoded as the group in upper case. -/
theorem symbolField_encEval_of_groupValue_eq {c : Group} (hvalid : CodesValid c) {v : Block} (hv : v.toNat = groupValue c)
    (i : Fin 7) : symbolField (encEval v).encSym i = caseNorm (symbolField c i) := by
  choose d hd using hvalid
  have hdigits : lane (decompose v) = d :=
    valueOf_injective (by rw [valueOf_decompose, hv, groupValue_eq_valueOf hd])
  rw [symbolField_encEval, hdigits, hd]

/-- `dec_out` of a valid group is its value, less `2^32` exactly when it overflows. -/
theorem decOut_toNat_of_codesValid {c : Group} (h : CodesValid c) :
    ((decEval c).decOvf = 0 → (decEval c).decOut.toNat = groupValue c)
      ∧ ((decEval c).decOvf = 1 → (decEval c).decOut.toNat + 2 ^ 32 = groupValue c) := by
  obtain ⟨-, -, hout, hovf⟩ := decEval_status_of_codesValid h
  have hlt : groupValue c < 24 ^ 7 := valueOf_lt _
  rw [hovf, hout]
  constructor
  · intro h0
    have hfits : ¬ 2 ^ 32 ≤ groupValue c := by rw [← hovf, h0]; decide
    omega
  · intro hle
    omega

/-- Only a valid group overflows (R69). -/
theorem codesValid_of_decOvf_eq_one {c : Group} (h : (decEval c).decOvf = 1) : CodesValid c := by
  by_contra hc
  obtain ⟨-, -, hovf, -⟩ := decEval_status_of_not_codesValid hc
  exact absurd (h.symm.trans hovf) (by decide)

/-- Settles O26: the encoder's group has `dec_out` as its value, which is the value of `c` or `2^32` below it. -/
theorem decodeThenEncodeCanonicalises : Obligations.DecodeThenEncodeCanonicalises := by
  intro c s
  refine ⟨_, _, exec_dec c s, exec_enc _ _, fun herr hovf i => ?_, fun hovf => ?_⟩
  · have hvalid := (decErr_eq_zero_iff c).mp herr
    obtain ⟨hfits, -⟩ := decOut_toNat_of_codesValid hvalid
    exact symbolField_encEval_of_groupValue_eq hvalid (hfits hovf) i
  · obtain ⟨-, hwraps⟩ := decOut_toNat_of_codesValid (codesValid_of_decOvf_eq_one hovf)
    have hvalue : groupValue (encEval (decEval c).decOut).encSym + 2 ^ 32 = groupValue c := by
      rw [groupValue_encSym, hwraps hovf]
    refine ⟨codesValid_encSym _, hvalue, fun hsame => ?_⟩
    have hvalues : groupValue (encEval (decEval c).decOut).encSym = groupValue c := congrArg groupValue hsame
    omega

end Sys2Proof.Machine
end

section
/-! The laws of `encode` and `decode` over sequences (spec/20_memory.md R34; spec/42_stream_reference.md R84 to R87). -/

namespace Sys2Proof.Machine

/-! ### Splitting, concatenating and writing out (R34) -/

theorem getElem?_eq_symbolField {t : List Byte} (h : t.length % 7 = 0) (k : Nat) (i : Fin 7) :
    t[7 * k + i.val]? = (groupsOf t)[k]?.map fun g => symbolField g i := by
  have hpos := flatMap_groupText_getElem? id (groupsOf t) k i
  simpa only [id_eq, flatMap_groupText_groupsOf h] using hpos

/-- Settles O33: a sequence is its blocks, or groups, written out one after another. -/
theorem blocksAreAlignedToTheirSequence : Obligations.BlocksAreAlignedToTheirSequence := by
  constructor
  · intro x hx
    refine ⟨blocksOf_length hx, fun k v j hv => ?_⟩
    rw [getElem?_eq_blockByte hx, hv, Option.map_some]
  · intro t ht
    refine ⟨groupsOf_length ht, fun k g i hg => ?_⟩
    rw [getElem?_eq_symbolField ht, hg, Option.map_some]

theorem blocksOf_append {x : List Byte} (hx : x.length % 4 = 0) (y : List Byte) :
    blocksOf (x ++ y) = blocksOf x ++ blocksOf y := by
  refine whole_blocks_induction (P := fun x => blocksOf (x ++ y) = blocksOf x ++ blocksOf y) rfl ?_ x hx
  intro b0 b1 b2 b3 rest _ ih
  simp only [List.cons_append, blocksOf, ih]

theorem groupsOf_append {t : List Byte} (ht : t.length % 7 = 0) (u : List Byte) :
    groupsOf (t ++ u) = groupsOf t ++ groupsOf u := by
  refine whole_groups_induction (P := fun t => groupsOf (t ++ u) = groupsOf t ++ groupsOf u) rfl ?_ t ht
  intro c0 c1 c2 c3 c4 c5 c6 rest _ ih
  simp only [List.cons_append, groupsOf, ih]

theorem blocksOf_flatMap_blockBytes (vs : List Block) : blocksOf (vs.flatMap blockBytes) = vs := by
  induction vs with
  | nil => rfl
  | cons v vs ih =>
    rw [List.flatMap_cons, blocksOf_append (by rw [blockBytes_length]), ih, blockBytes, blocksOf, blockOfBytes_blockByte]
    rfl

theorem groupsOf_flatMap_groupText (gs : List Group) : groupsOf (gs.flatMap groupText) = gs := by
  induction gs with
  | nil => rfl
  | cons g gs ih => rw [List.flatMap_cons, groupsOf_groupText_append, ih]

theorem length_flatMap_blockBytes_mod (vs : List Block) : (vs.flatMap blockBytes).length % 4 = 0 := by
  rw [length_flatMap_of_length_eq blockBytes_length, Nat.mul_mod_right]

theorem length_flatMap_groupText_mod (gs : List Group) : (gs.flatMap groupText).length % 7 = 0 := by
  rw [length_flatMap_of_length_eq groupText_length, Nat.mul_mod_right]

/-! ### `encode` and `decode` on sequences given as blocks and as groups -/

theorem encodeStream_flatMap_blockBytes (vs : List Block) :
    encodeStream (vs.flatMap blockBytes) = .ok ((vs.map fun v => (encEval v).encSym).flatMap groupText) := by
  rw [encodeStream_of_whole (length_flatMap_blockBytes_mod vs), blocksOf_flatMap_blockBytes, List.flatMap_map]

/-- Groups that are all free of errors decode to the bytes of their `dec_out`. -/
theorem decodeStream_flatMap_groupText {gs : List Group} (h : ∀ g ∈ gs, CodesValid g) :
    decodeStream (gs.flatMap groupText) = .ok ((gs.map fun g => (decEval g).decOut).flatMap blockBytes) := by
  have hnoerr : ∀ g ∈ groupsOf (gs.flatMap groupText), (decEval g).decErr = 0 := by
    rw [groupsOf_flatMap_groupText]
    exact fun g hg => (decErr_eq_zero_iff g).mpr (h g hg)
  rw [decodeStream_of_no_error (length_flatMap_groupText_mod gs) hnoerr, groupsOf_flatMap_groupText, List.flatMap_map]

/-! ### Concatenation (R84) -/

theorem collectDecoded_eq_ok_iff (r : List DecPorts) (a : List Byte) :
    collectDecoded r = .ok a ↔ firstBadFrom 0 r = none ∧ r.flatMap (fun p => blockBytes p.decOut) = a := by
  rw [collectDecoded]
  cases firstBadFrom 0 r <;> simp

/-- Two lists of groups have no rejected code exactly when neither has one. -/
theorem firstBadFrom_append_eq_none {gs es : List Group} (hgs : firstBadFrom 0 (gs.map decEval) = none)
    (hes : firstBadFrom 0 (es.map decEval) = none) : firstBadFrom 0 ((gs ++ es).map decEval) = none := by
  rw [firstBadFrom_eq_findIdx?] at *
  rw [List.flatMap_append, List.findIdx?_append, hgs, hes]
  rfl

/-- Settles O39: blocks and groups of a concatenation are those of its parts, and it has an error only where a part has one. -/
theorem blocksAreIndependent : Obligations.BlocksAreIndependent := by
  constructor
  · intro x y hx hy
    have hxy : (x ++ y).length % 4 = 0 := by rw [List.length_append]; omega
    refine ⟨_, _, encodeStream_of_whole hx, encodeStream_of_whole hy, ?_⟩
    rw [encodeStream_of_whole hxy, blocksOf_append hx, List.flatMap_append]
  · intro s u a b hs hu hsa hub
    have hsu : (s ++ u).length % 7 = 0 := by rw [List.length_append]; omega
    rw [decodeStream_of_whole hs, collectDecoded_eq_ok_iff] at hsa
    rw [decodeStream_of_whole hu, collectDecoded_eq_ok_iff] at hub
    obtain ⟨hsnone, rfl⟩ := hsa
    obtain ⟨hunone, rfl⟩ := hub
    rw [decodeStream_of_whole hsu, collectDecoded_eq_ok_iff, groupsOf_append hs]
    refine ⟨firstBadFrom_append_eq_none hsnone hunone, ?_⟩
    rw [List.map_append, List.flatMap_append]

/-! ### The round trips (R85) -/

theorem decodeStream_encodeStream {x : List Byte} (hx : x.length % 4 = 0) :
    ∃ t : List Byte, encodeStream x = .ok t ∧ decodeStream t = .ok x := by
  have hencode := encodeStream_flatMap_blockBytes (blocksOf x)
  rw [flatMap_blockBytes_blocksOf hx] at hencode
  refine ⟨_, hencode, ?_⟩
  have hvalid : ∀ g ∈ (blocksOf x).map fun v => (encEval v).encSym, CodesValid g :=
    List.forall_mem_map.mpr fun v _ => codesValid_encSym v
  rw [decodeStream_flatMap_groupText hvalid, List.map_map]
  simp only [Function.comp_def, decEval_encSym, List.map_id', flatMap_blockBytes_blocksOf hx]

theorem codesValid_of_forall_mem {t : List Byte} (ht : t.length % 7 = 0) (h : ∀ c ∈ t, inv c ≠ none) :
    ∀ g ∈ groupsOf t, CodesValid g := by
  intro g hg i
  have hmem : symbolField g i ∈ (groupsOf t).flatMap groupText :=
    List.mem_flatMap.mpr ⟨g, hg, mem_groupText.mpr ⟨i, rfl⟩⟩
  rw [flatMap_groupText_groupsOf ht] at hmem
  exact (laneValid_inv_iff _).mp (Option.isSome_iff_ne_none.mpr (h _ hmem))

theorem group_ext {g e : Group} (h : ∀ i, symbolField g i = symbolField e i) : g = e := by
  rw [← packSymbols_symbolLanes g, ← packSymbols_symbolLanes e, symbolLanes, symbolLanes, funext h]

/-- A valid group without overflow is encoded back to itself in upper case (R73). -/
theorem encSym_decOut_eq_groupUpper {g : Group} (hvalid : CodesValid g) (hfits : groupValue g < 2 ^ 32) :
    (encEval (decEval g).decOut).encSym = groupUpper g := by
  obtain ⟨-, -, hout, -⟩ := decEval_status_of_codesValid hvalid
  rw [Nat.mod_eq_of_lt hfits] at hout
  refine group_ext fun i => ?_
  rw [symbolField_encEval_of_groupValue_eq hvalid hout, symbolField_groupUpper]

theorem groupText_mapCodes (f : Byte → Byte) (g : Group) : groupText (mapCodes f g) = (groupText g).map f := by
  rw [mapCodes, groupText_packSymbols]
  rfl

theorem flatMap_groupText_map_mapCodes (f : Byte → Byte) (gs : List Group) :
    (gs.map (mapCodes f)).flatMap groupText = (gs.flatMap groupText).map f := by
  simp only [List.flatMap_map, List.map_flatMap, groupText_mapCodes]

theorem encodeStream_decodeStream {s : List Byte} (hs : s.length % 7 = 0) (hvalid : ∀ c ∈ s, inv c ≠ none)
    (hfits : ∀ g ∈ groupsOf s, groupValue g < 2 ^ 32) :
    ∃ x : List Byte, decodeStream s = .ok x ∧ encodeStream x = .ok (upperText s) := by
  have hgroups := codesValid_of_forall_mem hs hvalid
  have hdecode := decodeStream_flatMap_groupText hgroups
  rw [flatMap_groupText_groupsOf hs] at hdecode
  refine ⟨_, hdecode, ?_⟩
  have hupper : ((groupsOf s).map fun g => (decEval g).decOut).map (fun v => (encEval v).encSym)
      = (groupsOf s).map (mapCodes caseNorm) := by
    rw [List.map_map]
    exact List.map_congr_left fun g hg => encSym_decOut_eq_groupUpper (hgroups g hg) (hfits g hg)
  rw [encodeStream_flatMap_blockBytes, hupper, flatMap_groupText_map_mapCodes, flatMap_groupText_groupsOf hs, upperText]

/-- Settles O40: over the groups the calls work one by one, so the round trips of a block and of a group carry over. -/
theorem streamsRoundTrip : Obligations.StreamsRoundTrip :=
  ⟨fun _ => decodeStream_encodeStream, fun _ => encodeStream_decodeStream⟩

/-! ### Case (R86, R87) -/

theorem groupsOf_map (f : Byte → Byte) {t : List Byte} (ht : t.length % 7 = 0) :
    groupsOf (t.map f) = (groupsOf t).map (mapCodes f) := by
  rw [← groupsOf_flatMap_groupText ((groupsOf t).map (mapCodes f)), flatMap_groupText_map_mapCodes,
    flatMap_groupText_groupsOf ht]

/-- The call reads the status outputs and `dec_out`, and no echo of the input codes. -/
theorem collectDecoded_mapCodes {f : Byte → Byte} (hf : ∀ c, inv (f c) = inv c) (gs : List Group) :
    collectDecoded ((gs.map (mapCodes f)).map decEval) = collectDecoded (gs.map decEval) := by
  have hbad : ∀ k, firstBadFrom k ((gs.map (mapCodes f)).map decEval) = firstBadFrom k (gs.map decEval) := by
    induction gs with
    | nil => exact fun _ => rfl
    | cons g gs ih =>
      intro k
      simp only [List.map_cons, firstBadFrom, decEval_mapCodes hf, ih]
  simp only [collectDecoded, hbad, List.flatMap_map, decEval_mapCodes hf]

theorem decodeStream_map {f : Byte → Byte} (hf : ∀ c, inv (f c) = inv c) (t : List Byte) :
    decodeStream (t.map f) = decodeStream t := by
  by_cases ht : t.length % 7 = 0
  · have hmap : (t.map f).length % 7 = 0 := by rwa [List.length_map]
    rw [decodeStream_of_whole hmap, decodeStream_of_whole ht, groupsOf_map f ht, collectDecoded_mapCodes hf]
  · rw [decodeStream, decodeStream, List.length_map, if_pos ht, if_pos ht]

/-- Settles O41: the validator reads a code, its upper-case and its lower-case form alike. -/
theorem decodeIsCaseInsensitive : Obligations.DecodeIsCaseInsensitive := fun s =>
  ⟨decodeStream_map inv_caseNorm s, decodeStream_map inv_lowerCase s⟩

/-- Settles O42: every code comes from a symbol field of the encoder, which the ROM fills. -/
theorem encodeReturnsCanonicalText : Obligations.EncodeReturnsCanonicalText := by
  intro x hx
  refine ⟨_, encodeStream_of_whole hx, fun c hc => ?_⟩
  obtain ⟨v, -, hv⟩ := List.mem_flatMap.mp hc
  obtain ⟨i, rfl⟩ := mem_groupText.mp hv
  rw [symbolField_encEval]
  exact ⟨⟨_, rfl⟩, caseNorm_alpha _⟩

end Sys2Proof.Machine
end

section
/-! Runs of lines, and host calls run as lines (spec/30_encoding.md R48, R55; spec/42_stream_reference.md R88;
spec/70_reset_and_hazards.md R107, R109). -/

namespace Sys2Proof.Machine

/-! ### The trace of a run, which always completes -/

/-- The settled state after each line. -/
def settledTrace : List Line → State → List State
  | [], _ => []
  | l :: rest, s => (s.present (lineInstr s l)).settle :: settledTrace rest (s.present (lineInstr s l)).settle

theorem runLines_eq_settledTrace (ls : List Line) (s : State) : runLines ls s = .next (settledTrace ls s) := by
  induction ls generalizing s with
  | nil => rfl
  | cons l ls ih => rw [runLines_cons, ih, settledTrace]

theorem runHostOp_eq (op : HostOp) (s : State) :
    runHostOp op s = .next (hostResult op (settledTrace (HostOp.expand op) s)) := by
  rw [runHostOp, runLines_eq_settledTrace]

theorem settledTrace_length (ls : List Line) (s : State) : (settledTrace ls s).length = ls.length := by
  induction ls generalizing s with
  | nil => rfl
  | cons l ls ih => rw [settledTrace, List.length_cons, ih, List.length_cons]

theorem settled_of_mem_settledTrace {ls : List Line} {s t : State} (h : t ∈ settledTrace ls s) : t.Settled := by
  induction ls generalizing s with
  | nil => cases h
  | cons l ls ih =>
    rw [settledTrace, List.mem_cons] at h
    rcases h with rfl | hrest
    · exact State.settled_settle _
    · exact ih hrest

/-- Presenting sets the selector, and a line reads nothing but the driven inputs. -/
theorem settle_present_congr (l : Line) {s r : State} (hin : s.enc.encIn = r.enc.encIn) (hsym : s.dec.decSym = r.dec.decSym) :
    (s.present (lineInstr s l)).settle = (r.present (lineInstr r l)).settle := by
  have hinstr : lineInstr s l = lineInstr r l := by
    cases l with
    | op i => rfl
    | decOfEncSym => rw [lineInstr_decOfEncSym, lineInstr_decOfEncSym, hin]
  rw [hinstr]
  cases lineInstr r l with
  | enc v => exact State.settle_congr rfl rfl hsym
  | dec c => exact State.settle_congr rfl hin rfl

/-- Settles O51: a run's trace is made of settled states, the first of which the driven inputs determine. -/
theorem runsObserveSettledOutputsOnly : Obligations.RunsObserveSettledOutputsOnly := by
  refine ⟨fun ls s r hin hsym => ?_, fun ls s => ?_, fun s => ?_⟩
  · rw [runLines_eq_settledTrace, runLines_eq_settledTrace]
    cases ls with
    | nil => rfl
    | cons l ls => rw [settledTrace, settledTrace, settle_present_congr l hin hsym]
  · refine ⟨_, runLines_eq_settledTrace ls s, settledTrace_length ls s, fun t ht => ?_⟩
    have hsettled := settled_of_mem_settledTrace ht
    exact ⟨hsettled, hsettled.legal⟩
  · exact ⟨_, runLines_eq_settledTrace _ s, rfl, rfl⟩

/-- Settles O47: the second line presents the settled symbols of the first, which decode to the block. -/
theorem wiredUnitsGiveTheBlockBack : Obligations.WiredUnitsGiveTheBlockBack := by
  intro v s
  refine ⟨_, _, runLines_eq_settledTrace _ s, rfl, ?_⟩
  change (decEval (encEval v).encSym).decOut = v ∧ (decEval (encEval v).encSym).decErr = 0
  rw [decEval_encSym]
  exact ⟨rfl, rfl⟩

/-! ### Host calls (R55, R88) -/

theorem settledTrace_enc (vs : List Block) (s : State) :
    (settledTrace (vs.map fun v => .op (.enc v)) s).map State.enc = vs.map encEval := by
  induction vs generalizing s with
  | nil => rfl
  | cons v vs ih =>
    rw [List.map_cons, settledTrace, List.map_cons, ih]
    rfl

theorem settledTrace_dec (gs : List Group) (s : State) :
    (settledTrace (gs.map fun c => .op (.dec c)) s).map State.dec = gs.map decEval := by
  induction gs generalizing s with
  | nil => rfl
  | cons c gs ih =>
    rw [List.map_cons, settledTrace, List.map_cons, ih]
    rfl

theorem expand_decode_of_whole {t : List Byte} (h : t.length % 7 = 0) :
    HostOp.expand (.decode t) = (groupsOf t).map fun c => .op (.dec c) := if_neg (not_not_intro h)

/-- The trace of `ENCODE` shows the encoder's function of each block. -/
theorem settledTrace_expand_encode {x : List Byte} (h : x.length % 4 = 0) (s : State) :
    (settledTrace (HostOp.expand (.encode x)) s).map State.enc = (blocksOf x).map encEval := by
  rw [expand_encode_of_whole h, settledTrace_enc]

/-- The trace of `DECODE` shows the decoder's function of each group. -/
theorem settledTrace_expand_decode {t : List Byte} (h : t.length % 7 = 0) (s : State) :
    (settledTrace (HostOp.expand (.decode t)) s).map State.dec = (groupsOf t).map decEval := by
  rw [expand_decode_of_whole h, settledTrace_dec]

/-- Settles O46: the lines of a call are one operation for each block or group, and each line adds one settled state. -/
theorem oneEvaluationPerBlock : Obligations.OneEvaluationPerBlock := by
  refine fun s => ⟨fun x hx => ?_, fun t ht => ?_⟩
  · refine ⟨_, runLines_eq_settledTrace _ s, runHostOp_eq _ s, ?_, settledTrace_expand_encode hx s⟩
    rw [settledTrace_length, expand_encode_of_whole hx, List.length_map, blocksOf_length hx]
  · refine ⟨_, runLines_eq_settledTrace _ s, runHostOp_eq _ s, ?_, settledTrace_expand_decode ht s⟩
    rw [settledTrace_length, expand_decode_of_whole ht, List.length_map, groupsOf_length ht]

/-- What the host reads from a trace of `ENCODE` depends on the encoder's ports alone. -/
theorem hostResult_encode {x : List Byte} (h : x.length % 4 = 0) (trace : List State) :
    hostResult (.encode x) trace = .ok ((trace.map State.enc).flatMap fun p => groupText p.encSym) := by
  rw [hostResult, if_neg (not_not_intro h), List.flatMap_map]

theorem hostResult_decode {t : List Byte} (h : t.length % 7 = 0) (trace : List State) :
    hostResult (.decode t) trace = collectDecoded (trace.map State.dec) := if_neg (not_not_intro h)

/-- Settles O45: with a bad length both fail alike; else the trace shows what the host functions compute. -/
theorem pseudoOperationsRunAsLines : Obligations.PseudoOperationsRunAsLines := by
  refine fun s => ⟨fun x => ?_, fun t => ?_⟩ <;> rw [runHostOp_eq]
  · by_cases hx : x.length % 4 = 0
    · rw [hostResult_encode hx, settledTrace_expand_encode hx, encodeStream_of_whole hx, List.flatMap_map]
    · rw [hostResult, encodeStream, if_pos hx, if_pos hx]
  · by_cases ht : t.length % 7 = 0
    · rw [hostResult_decode ht, settledTrace_expand_decode ht, decodeStream_of_whole ht]
    · rw [hostResult, decodeStream, if_pos ht, if_pos ht]

end Sys2Proof.Machine
end

section
/-! One sequence spread over several replicated units (spec/60_exceptions.md R103). -/

namespace Sys2Proof.Machine

theorem Bank.encodeOn_cons (b : Bank) {k : Nat} (hk : k < b.encs.length) (v : Block) (rest : List (Nat × Block)) :
    b.encodeOn ((k, v) :: rest)
      = (Bank.encodeOn ⟨b.encs.set k (encEval v), b.decs⟩ rest).map (groupText (encEval v).encSym ++ ·) := by
  rw [Bank.encodeOn, Bank.eval, if_pos hk]
  simp only [List.getElem?_set_self hk]
  cases Bank.encodeOn ⟨b.encs.set k (encEval v), b.decs⟩ rest <;> rfl

theorem Bank.decodeOn_cons (b : Bank) {k : Nat} (hk : k < b.decs.length) (c : Group) (rest : List (Nat × Group)) :
    b.decodeOn ((k, c) :: rest) = (Bank.decodeOn ⟨b.encs, b.decs.set k (decEval c)⟩ rest).map (decEval c :: ·) := by
  rw [Bank.decodeOn, Bank.eval, if_pos hk]
  simp only [List.getElem?_set_self hk]
  cases Bank.decodeOn ⟨b.encs, b.decs.set k (decEval c)⟩ rest <;> rfl

/-- Whichever encoder takes a block, its symbols are read right after its evaluation. -/
theorem Bank.encodeOn_zip (b : Bank) {ks : List Nat} {vs : List Block} (hlen : ks.length = vs.length)
    (hks : ∀ k ∈ ks, k < b.encs.length) :
    b.encodeOn (ks.zip vs) = some (vs.flatMap fun v => groupText (encEval v).encSym) := by
  induction ks generalizing b vs with
  | nil =>
    obtain rfl := List.eq_nil_of_length_eq_zero hlen.symm
    rfl
  | cons k ks ih =>
    obtain ⟨v, vs, rfl⟩ := List.exists_cons_of_length_eq_add_one hlen.symm
    obtain ⟨hk, hrest⟩ := List.forall_mem_cons.mp hks
    have htext := ih ⟨b.encs.set k (encEval v), b.decs⟩ (Nat.succ.inj hlen) (by simpa only [List.length_set] using hrest)
    rw [List.zip_cons_cons, Bank.encodeOn_cons b hk, htext, List.flatMap_cons, Option.map_some]

/-- Whichever decoder takes a group, its ports are read right after its evaluation. -/
theorem Bank.decodeOn_zip (b : Bank) {ks : List Nat} {gs : List Group} (hlen : ks.length = gs.length)
    (hks : ∀ k ∈ ks, k < b.decs.length) : b.decodeOn (ks.zip gs) = some (gs.map decEval) := by
  induction ks generalizing b gs with
  | nil =>
    obtain rfl := List.eq_nil_of_length_eq_zero hlen.symm
    rfl
  | cons k ks ih =>
    obtain ⟨g, gs, rfl⟩ := List.exists_cons_of_length_eq_add_one hlen.symm
    obtain ⟨hk, hrest⟩ := List.forall_mem_cons.mp hks
    have hports := ih ⟨b.encs, b.decs.set k (decEval g)⟩ (Nat.succ.inj hlen) (by simpa only [List.length_set] using hrest)
    rw [List.zip_cons_cons, Bank.decodeOn_cons b hk, hports, List.map_cons, Option.map_some]

/-- Settles O49: every evaluation shows its unit's function of the input, on any unit of the bank. -/
theorem instancesAgree : Obligations.InstancesAgree := by
  constructor
  · intro b ks x hx hlen hks
    rw [← blocksOf_length hx] at hlen
    exact ⟨_, b.encodeOn_zip hlen hks, encodeStream_of_whole hx⟩
  · intro b ks t ht hlen hks
    rw [← groupsOf_length ht] at hlen
    exact ⟨_, b.decodeOn_zip hlen hks, decodeStream_of_whole ht⟩

end Sys2Proof.Machine
end

section
/-! Values the spec writes out: evaluated, each statement at the spec's own literals (spec/95_test_vectors.md sections 1 and 3;
spec/10_state.md R24; spec/42_stream_reference.md R83; spec/60_exceptions.md R92). -/

namespace Sys2Proof.Machine

/-- What `ENC` shows does not depend on the state it starts from. -/
theorem exec_enc_shows {v : Block} {dig : DigitBus} {sym : Group} (h : encEval v = ⟨v, dig, sym⟩) (s : State) :
    ∃ t : State, exec (.enc v) s = .next t ∧ t.enc.encDig = dig ∧ t.enc.encSym = sym := by
  refine ⟨_, exec_enc v s, ?_⟩
  rw [h]
  exact ⟨rfl, rfl⟩

/-- SV4: the greatest block, in lower case. -/
theorem decEval_lower_case_greatest : decEval 0x78356767626837 = ⟨0x78356767626837, 0xFFFFFFFF, 0, 0, 0⟩ := by decide

/-- SV8: `I` in lane 6 is no symbol. -/
theorem decEval_excluded_last : decEval 0x5A5A5A5A5A5A49 = ⟨0x5A5A5A5A5A5A49, 0, 1, 6, 0⟩ := by decide

/-- Settles O24: each vector is one evaluation of one unit, whatever the state. -/
theorem sourceVectorsHold : Obligations.SourceVectorsHold := by
  intro s
  refine ⟨exec_enc_shows (by decide) s, exec_enc_shows (by decide) s, exec_enc_shows (by decide) s,
    exec_enc_shows (by decide) s, ⟨_, exec_dec _ s, ?_⟩, ⟨_, exec_dec _ s, ?_⟩⟩
  · rw [decEval_lower_case_greatest]
    exact ⟨rfl, rfl, rfl⟩
  · rw [decEval_excluded_last]
    exact ⟨rfl, rfl, rfl⟩

/-- Settles O3: each literal is the word of its line, and `decode` undoes `encode`. -/
theorem wordsOfTheSpecDecode : Obligations.WordsOfTheSpecDecode :=
  ⟨decode_encode (.enc 0xDEADBEEF), decode_encode (.enc 0x12345678), decode_encode (.dec 0x35594541545841),
   decode_encode (.enc 0x88553311), decode_encode (.dec 0x58354747424837)⟩

/-- Settles O35: the empty sequence has no block and no group. -/
theorem emptySequencesSucceed : Obligations.EmptySequencesSucceed :=
  ⟨encodeStream_of_whole rfl, decodeStream_of_whole rfl, expand_encode_of_whole rfl, rfl⟩

/-- Settles O43: the codes and messages stand in the definitions. -/
theorem conditionsAreDistinguishable : Obligations.ConditionsAreDistinguishable := ⟨rfl, rfl, rfl, rfl, rfl, rfl, rfl⟩

/-- Settles O50: the ROM and the lower-case lanes are read out; that the validator inverts the ROM is `inv_alpha`. -/
theorem romHoldsTheAlphabetInOrder : Obligations.RomHoldsTheAlphabetInOrder := ⟨by decide, by decide, inv_alpha, by decide⟩

end Sys2Proof.Machine
end
